-- ==== Sys2Proof/Word.lean ====
section
/-! DEFINITION. The words of the block: the widths the spec gives (00_scope.md R5: COUNT_W 16, VARIANT_W 1, VEL_W 32;
30_encoding.md R45: the 17-bit request word). -/

namespace Sys2Proof

/-- A count: the input `COUNT[15:0]` and a ROM count element, unsigned (10_state.md R19, 20_memory.md R26). -/
abbrev Count := BitVec 16

/-- A 32-bit pattern of an IEEE 754 binary32 value: the output `VELOCITY[31:0]` and a ROM velocity element
(10_state.md R20, 20_memory.md R26). -/
abbrev F32 := BitVec 32

/-- The request word `req[16:0]` = VARIANT, COUNT (30_encoding.md R45). -/
abbrev RequestWord := BitVec 17

/-- A byte of the sensor frame, which the environment turns into a count (20_memory.md R33). -/
abbrev Byte := BitVec 8

end Sys2Proof
end

