-- ==== Sys2Proof/Syntax.lean ====
section
/-! DEFINITION. The two operations, whole (30_encoding.md R49), and the lines of the spec's assembly notation with its one
pseudo-instruction (R52, R53). -/

namespace Sys2Proof

/-- `ChipVariant`, the value of the port `VARIANT`: one of two tags (10_state.md R14). -/
inductive Variant where
  /-- `NarrowRange`, bit value 0, ROM bank N, 9 nodes. -/
  | narrowRange
  /-- `WideRange`, bit value 1, ROM bank W, 13 nodes. -/
  | wideRange
  deriving DecidableEq, Repr

/-- One constructor per row of spec/opcode_table.json. Every operand value is legal (30_encoding.md R50). -/
inductive Instr where
  /-- `INTERP.N count` (42_interpolate.md R80). -/
  | interpN (count : Count)
  /-- `INTERP.W count` (42_interpolate.md R81). -/
  | interpW (count : Count)
  deriving DecidableEq, Repr

/-- A line of the spec's assembly notation with its literal read as a number (30_encoding.md R52, R53). -/
inductive AsmLine where
  /-- `INTERP.N <count>`. -/
  | interpN (count : Nat)
  /-- `INTERP.W <count>`. -/
  | interpW (count : Nat)
  /-- The pseudo-instruction `INTERP <variant>, <count>` (R53). -/
  | interp (variant : Variant) (count : Nat)
  deriving DecidableEq, Repr

/-- A 5-byte sensor frame, byte 0 first, from which the environment forms the count (20_memory.md R33; 95_test_vectors.md
P4 names the bytes). -/
structure Frame where
  checksum : Byte
  countHigh : Byte
  countLow : Byte
  generic0 : Byte
  generic1 : Byte
  deriving DecidableEq, Repr

end Sys2Proof
end

