-- ==== Sys2Proof/WellFormed.lean ====
section
/-! DEFINITION. What is well formed. Every instruction is: no operand value is reserved or illegal (30_encoding.md R50). An
assembly line is when its literal lies in 0 .. 65535 (R52). The check of the ROM configuration (20_memory.md R30) is
`Sys2Proof.Machine.Memory.wf` in Machine/Rom.lean. -/

namespace Sys2Proof

/-- R50: "There are no illegal, reserved, hint or custom encodings." -/
def Instr.wf : Instr → Bool
  | .interpN _ => true
  | .interpW _ => true

/-- R52: `<count>` is a literal in 0 .. 65535. -/
def AsmLine.wf : AsmLine → Bool
  | .interpN n => decide (n ≤ 65535)
  | .interpW n => decide (n ≤ 65535)
  | .interp _ n => decide (n ≤ 65535)

end Sys2Proof
end

