-- ==== Sys2Proof/Decode.lean ====
section
/-! DEFINITION. The decoder of request words, total on 17 bits (30_encoding.md R45, R49, R50), the opcode table it follows,
and the encoder. A number that is no 17-bit word is rejected by name. -/

namespace Sys2Proof

/-- The bit value of a variant tag (10_state.md R14). -/
def variantBit : Variant → BitVec 1
  | .narrowRange => 0#1
  | .wideRange => 1#1

/-- The tag of a bit value: both values are legal (10_state.md R14). -/
def variantOfBit (b : BitVec 1) : Variant := if b = 0#1 then .narrowRange else .wideRange

/-- The operation of a variant with its operand: what `INTERP <variant>, <count>` stands for (30_encoding.md R53). -/
def interp : Variant → Count → Instr
  | .narrowRange, count => .interpN count
  | .wideRange, count => .interpW count

/-- The variant an operation selects: the whole opcode (30_encoding.md R45). -/
def Instr.variant : Instr → Variant
  | .interpN _ => .narrowRange
  | .interpW _ => .wideRange

/-- The operand of an operation (30_encoding.md R45). -/
def Instr.count : Instr → Count
  | .interpN count => count
  | .interpW count => count

/-- The field `variant` of format Q, bit 16 (R45). -/
def variantField (w : RequestWord) : BitVec 1 := w.extractLsb' 16 1

/-- The field `count` of format Q, bits 15:0 (R45). -/
def countField (w : RequestWord) : Count := w.extractLsb' 0 16

/-- One row of the operation map (R49): a word is the row's when its bits under the mask are the pattern. -/
structure OpcodeRow where
  mnemonic : String
  pattern : RequestWord
  mask : RequestWord
  deriving DecidableEq, Repr

/-- The operation map of R49, the copy of spec/opcode_table.json. -/
def opcodeTable : List OpcodeRow :=
  [ { mnemonic := "INTERP.N", pattern := 0x00000#17, mask := 0x10000#17 },
    { mnemonic := "INTERP.W", pattern := 0x10000#17, mask := 0x10000#17 } ]

/-- The mnemonic of an operation, as the table spells it. -/
def Instr.mnemonic : Instr → String
  | .interpN _ => "INTERP.N"
  | .interpW _ => "INTERP.W"

/-- R49: "A request word `w` decodes to the row whose `match` equals `w AND mask`." -/
def OpcodeRow.takes (r : OpcodeRow) (w : RequestWord) : Bool := (w &&& r.mask) == r.pattern

/-- The decoder: the operation of the field `variant`, its operand the field `count` (R45, R49). It is total and never
answers "invalid" (R50). -/
def decode (w : RequestWord) : Instr := interp (variantOfBit (variantField w)) (countField w)

/-- Why a number is not decoded. -/
inductive DecodeReject where
  /-- The number needs more than 17 bits: it is no request word (R51: there is one request length). -/
  | notARequestWord
  deriving DecidableEq, Repr

/-- The decoder on any number. -/
def decodeNumber (w : Nat) : Except DecodeReject Instr :=
  if w < 2 ^ 17 then .ok (decode (BitVec.ofNat 17 w)) else .error .notARequestWord

/-- The encoder: `req[16:0]` = VARIANT, COUNT (R45). -/
def encode (i : Instr) : RequestWord := variantBit i.variant ++ i.count

/-- The instruction the decoder reads from the bits `w` of a table row of `nbits` bits. There is one word, so the table's
numbering is R45's. Bits 23:17 of the three whole bytes are no bits of a request (notes/assumptions/15.md). -/
def decodeTableWord (nbits w : Nat) : Option Instr :=
  match decodeNumber (w % 2 ^ nbits) with
  | .ok i => some i
  | .error _ => none

end Sys2Proof
end

