-- ==== Sys2Proof/Config.lean ====
section
/-! DEFINITION. What an implementation fixes: the numerics record `NUM` (00_scope.md R5, section 5.3), the choice of it in a
configuration, and the free values. The configuration record of R5, which holds this choice and the contents of the ROM
banks, is `Sys2Proof.Machine.Configuration` (Machine/Rom.lean). -/

namespace Sys2Proof

/-- The numerics record `NUM` (00_scope.md section 5.3): five total functions of their operands alone. The spec's default
is `Sys2Proof.Machine.binary32`; a claim may instead assume named properties of an arbitrary record (42_interpolate.md
R85). It is configuration (10_state.md R23): a configuration names it by a `NumericsChoice`. -/
structure Numerics where
  /-- `NUM.cvt`: the widening of a 16-bit unsigned integer. -/
  cvt : Count → F32
  /-- `NUM.sub`. -/
  sub : F32 → F32 → F32
  /-- `NUM.mul`. -/
  mul : F32 → F32 → F32
  /-- `NUM.div`. -/
  div : F32 → F32 → F32
  /-- `NUM.add`. -/
  add : F32 → F32 → F32
  deriving Inhabited

/-- Which numerics record a configuration has (00_scope.md R5: `NUM` is an argument with a default). The choice is plain data,
so that State can hold the configuration (notes/assumptions/6.md). -/
inductive NumericsChoice where
  /-- The default record of R5 and R85: binary32, round to nearest, ties to even. -/
  | standard
  /-- Another record: `Config.otherNumerics k`, of which nothing is known but what a claim assumes of it. -/
  | other (k : Nat)
  deriving DecidableEq, Repr

/-- FREE VALUE (notes/assumptions/6.md): the numerics records other than the default. D5 leaves `NUM` `OPEN`, and a claim about
one of these may assume named properties of it and nothing else (R85). -/
opaque Config.otherNumerics : Nat → Numerics

/-- The arithmetic operation that a NaN comes from. -/
inductive NumOp where
  | add | sub | mul | div
  deriving DecidableEq, Repr

/-- FREE VALUE (notes/assumptions/7.md): the sign bit of a NaN result. R91: "NaN propagation rules and a canonical NaN are
therefore not needed and not defined". -/
opaque Config.nanSign : NumOp → F32 → F32 → BitVec 1

/-- FREE VALUE (notes/assumptions/7.md): the 22 payload bits of a NaN result (R91). -/
opaque Config.nanPayload : NumOp → F32 → F32 → BitVec 22

end Sys2Proof
end

