-- ==== Sys2Proof/Machine/Binary32.lean ====
section
/-! DEFINITION. The default numerics record (42_interpolate.md R85, 92_eei_decisions.md D5): IEEE 754 binary32, round to
nearest, ties to even, gradual underflow, each operation rounded once. A finite value is held exactly as an integer
number of UNITS of 2^-149, the smallest subnormal; the exact result of an operation is a fraction of units, and `round`
is the one place where it is narrowed to 32 bits. -/

namespace Sys2Proof.Machine.Binary32

/-- Bit 31, the sign (10_state.md R20). -/
def signBit (a : F32) : Bool := a.msb

/-- Bits 30:23, the biased exponent (R20). -/
def exponent (a : F32) : Nat := (a.extractLsb' 23 8).toNat

/-- Bits 22:0, the fraction (R20). -/
def fraction (a : F32) : Nat := (a.extractLsb' 0 23).toNat

/-- Bits 30:0. They order the non-negative values, infinity last. -/
def magnitude (a : F32) : Nat := (a.extractLsb' 0 31).toNat

/-- Bits 30:0 of an infinity: exponent 255, fraction 0. -/
def infinityMagnitude : Nat := 0x7F800000

def isNaN (a : F32) : Bool := decide (infinityMagnitude < magnitude a)

def isInfinite (a : F32) : Bool := decide (magnitude a = infinityMagnitude)

def isFinite (a : F32) : Bool := decide (magnitude a < infinityMagnitude)

def isZero (a : F32) : Bool := decide (magnitude a = 0)

/-- A normal number: finite with a non-zero exponent field (R91, R93). -/
def isNormal (a : F32) : Bool := isFinite a && decide (exponent a ≠ 0)

/-- The absolute value of a finite pattern in units of 2^-149: the fraction for exponent 0 (zero and the subnormals), and
otherwise the fraction with its leading one, scaled by the exponent (bias 127, 23 fraction bits; R46, R85). -/
def absUnits (a : F32) : Nat :=
  if exponent a = 0 then fraction a else (2 ^ 23 + fraction a) * 2 ^ (exponent a - 1)

/-- The value of a finite pattern in units of 2^-149. -/
def units (a : F32) : Int := if signBit a then -(absUnits a : Int) else (absUnits a : Int)

/-- The place of a pattern that is no NaN in the order of the values; both zeros have place 0. -/
def orderKey (a : F32) : Int := if signBit a then -(magnitude a : Int) else (magnitude a : Int)

/-- `a <= b` as `F32` values; false if either is a NaN. -/
def le (a b : F32) : Bool := !isNaN a && !isNaN b && decide (orderKey a ≤ orderKey b)

/-- `a < b` as `F32` values; false if either is a NaN. -/
def lt (a b : F32) : Bool := !isNaN a && !isNaN b && decide (orderKey a < orderKey b)

/-- The pattern with sign `negative` and bits 30:0 `mag`. -/
def pack (negative : Bool) (mag : Nat) : F32 := BitVec.ofBool negative ++ BitVec.ofNat 31 mag

def negate (a : F32) : F32 := pack (!signBit a) (magnitude a)

/-- The integer nearest to `n / d`, ties to even. -/
def nearestEven (n d : Nat) : Nat :=
  let q := n / d
  let r := n % d
  if 2 * r < d then q else if d < 2 * r then q + 1 else q + q % 2

/-- `f32` (00_scope.md section 5.1) of the fraction `n / d` of units, with a sign. `k` is how many low bits of the exact
value fall outside the 24 significant ones (0 below 2^24 units, where the format's grid is the unit itself: gradual
underflow, D13). In bits 30:0 a significand `m` with that shift is `k * 2^23 + m`, also when rounding carries `m` to
2^24; a value beyond the largest finite one is the infinity. -/
def round (negative : Bool) (n d : Nat) : F32 :=
  let k := Nat.log2 (n / d) - 23
  pack negative (min (k * 2 ^ 23 + nearestEven n (d * 2 ^ k)) infinityMagnitude)

/-- A quiet NaN, its sign and its payload free (notes/assumptions/7.md). -/
def nan (op : NumOp) (a b : F32) : F32 :=
  Config.nanSign op a b ++ (0x1FF#9 ++ Config.nanPayload op a b)

/-- Addition, for `add` and for `sub`. An exact sum of zero is +0 unless both operands are -0. -/
def addFor (op : NumOp) (a b : F32) : F32 :=
  if isNaN a || isNaN b then nan op a b
  else if isInfinite a then
    if isInfinite b && (signBit a != signBit b) then nan op a b else a
  else if isInfinite b then b
  else
    let sum := units a + units b
    if sum = 0 then pack (signBit a && signBit b) 0 else round (decide (sum < 0)) sum.natAbs 1

/-- `NUM.add(a, b) = f32(a + b)`. -/
def add (a b : F32) : F32 := addFor .add a b

/-- `NUM.sub(a, b) = f32(a - b)`. -/
def sub (a b : F32) : F32 := addFor .sub a (negate b)

/-- The sign of a product or a quotient. -/
def signOfProduct (a b : F32) : Bool := signBit a != signBit b

/-- `NUM.mul(a, b) = f32(a * b)`. -/
def mul (a b : F32) : F32 :=
  if isNaN a || isNaN b then nan .mul a b
  else if isInfinite a || isInfinite b then
    if isZero a || isZero b then nan .mul a b else pack (signOfProduct a b) infinityMagnitude
  else round (signOfProduct a b) (absUnits a * absUnits b) (2 ^ 149)

/-- `NUM.div(a, b) = f32(a / b)`. No rule divides by zero (R91); the quotient is then IEEE 754's (notes/assumptions/12.md). -/
def div (a b : F32) : F32 :=
  if isNaN a || isNaN b then nan .div a b
  else if isInfinite a then
    if isInfinite b then nan .div a b else pack (signOfProduct a b) infinityMagnitude
  else if isInfinite b then pack (signOfProduct a b) 0
  else if isZero b then
    if isZero a then nan .div a b else pack (signOfProduct a b) infinityMagnitude
  else round (signOfProduct a b) (absUnits a * 2 ^ 149) (absUnits b)

/-- The value `m` as a binary32 number, rounded to nearest. -/
def ofNat (m : Nat) : F32 := round false (m * 2 ^ 149) 1

/-- `NUM.cvt(u)`: the value `uint(u)`, which is exact (R86). -/
def cvt (u : Count) : F32 := ofNat u.toNat

/-- `f32(d)` of the decimal literal `numerator / denominator` (20_memory.md R29). -/
def ofDecimal (numerator denominator : Nat) : F32 := round false (numerator * 2 ^ 149) denominator

end Sys2Proof.Machine.Binary32

namespace Sys2Proof.Machine

/-- The default numerics record (00_scope.md section 5.3, 42_interpolate.md R85). -/
def binary32 : Numerics where
  cvt := Binary32.cvt
  sub := Binary32.sub
  mul := Binary32.mul
  div := Binary32.div
  add := Binary32.add

/-- The numerics record of a choice (00_scope.md R5). -/
def numericsOf : NumericsChoice → Numerics
  | .standard => binary32
  | .other k => Config.otherNumerics k

end Sys2Proof.Machine
end

