-- ==== Sys2Proof/Machine/Rom.lean ====
section
/-! DEFINITION. The two calibration ROM banks (10_state.md R16, 20_memory.md R25, R26), their default contents (R27, R28),
the constraints that any contents must meet (R17, R30), and the configuration record (00_scope.md R5). There is no other
memory, and nothing writes this one. -/

namespace Sys2Proof.Machine

/-- One bank: two parallel arrays, indexed by element; index `i` of both is node `i` (R16, R25). -/
structure Bank where
  cnt : List Count
  vel : List F32
  deriving DecidableEq, Repr

/-- The block's memory: bank N for the narrow range and bank W for the wide range (R16). -/
structure Memory where
  bankN : Bank
  bankW : Bank
  deriving DecidableEq, Repr

/-- Default contents of bank N (R27). Nodes 0, 1 and the velocity of node 8 are the source's; the rest is general knowledge
(notes/assumptions/2.md). -/
def defaultBankN : Bank where
  cnt := [409#16, 915#16, 1522#16, 2066#16, 2523#16, 2908#16, 3256#16, 3572#16, 3686#16]
  vel := [0x00000000#32, 0x3F88F5C3#32, 0x4000A3D7#32, 0x40400000#32, 0x407E147B#32, 0x409EB852#32,
    0x40BF5C29#32, 0x40DFAE14#32, 0x40E75C29#32]

/-- Default contents of bank W (R28), all from general knowledge (notes/assumptions/2.md). -/
def defaultBankW : Bank where
  cnt := [409#16, 1203#16, 1597#16, 1908#16, 2187#16, 2400#16, 2629#16, 2801#16, 3006#16, 3178#16, 3309#16, 3563#16,
    3686#16]
  vel := [0x00000000#32, 0x40000000#32, 0x40400000#32, 0x40800000#32, 0x40A00000#32, 0x40C00000#32, 0x40E00000#32,
    0x41000000#32, 0x41100000#32, 0x41200000#32, 0x41300000#32, 0x41500000#32, 0x41700000#32]

/-- The default contents of both banks. -/
def defaultMemory : Memory where
  bankN := defaultBankN
  bankW := defaultBankW

/-- The configuration record: the parameters that R5 marks "argument", `ROM_N`, `ROM_W` and `NUM`. It is the same for every
step of a run (10_state.md R23). -/
structure Configuration where
  /-- `ROM_N` and `ROM_W`. -/
  rom : Memory
  /-- `NUM`. -/
  num : NumericsChoice
  deriving DecidableEq, Repr

/-- The default configuration: "the default is what the test vectors of 95_test_vectors.md were computed with" (R5). -/
def defaultConfiguration : Configuration where
  rom := defaultMemory
  num := .standard

/-- The velocity literals of R27 in m/s, as fractions (numerator, denominator). -/
def literalsN : List (Nat × Nat) :=
  [(0, 1), (107, 100), (201, 100), (300, 100), (397, 100), (496, 100), (598, 100), (699, 100), (723, 100)]

/-- The velocity literals of R28 in m/s, as fractions. -/
def literalsW : List (Nat × Nat) :=
  [(0, 1), (2, 1), (3, 1), (4, 1), (5, 1), (6, 1), (7, 1), (8, 1), (9, 1), (10, 1), (11, 1), (13, 1), (15, 1)]

/-- `r` holds between every two neighbours. -/
def neighbours {α : Type} (r : α → α → Bool) : List α → Bool
  | [] => true
  | [_] => true
  | a :: b :: rest => r a b && neighbours r (b :: rest)

/-- R30(a): both arrays of the bank have exactly `n` elements. -/
def Bank.hasNodes (b : Bank) (n : Nat) : Bool := b.cnt.length == n && b.vel.length == n

/-- R30(b), R17(a): counts strictly increase, compared as 16-bit unsigned integers. -/
def Bank.countsIncrease (b : Bank) : Bool := neighbours (fun p q => decide (p.toNat < q.toNat)) b.cnt

/-- R30(c), R17(b): velocities do not decrease, compared as `F32` values (notes/assumptions/11.md). -/
def Bank.velocitiesRise (b : Bank) : Bool := neighbours Binary32.le b.vel

/-- R30(d), R17(c): every velocity is finite. -/
def Bank.velocitiesFinite (b : Bank) : Bool := b.vel.all Binary32.isFinite

/-- R30(a) to (d) for one bank of `n` nodes. -/
def Bank.wf (b : Bank) (n : Nat) : Bool :=
  b.hasNodes n && b.countsIncrease && b.velocitiesRise && b.velocitiesFinite

/-- R30(e): node 0 of bank N is (409, f32(0.0)), node 1 is (915, f32(1.07)), and node 8 has velocity f32(7.23). -/
def Memory.sourceCells (m : Memory) : Bool :=
  m.bankN.cnt[0]? == some 409#16 && m.bankN.vel[0]? == some 0x00000000#32 &&
  m.bankN.cnt[1]? == some 915#16 && m.bankN.vel[1]? == some 0x3F88F5C3#32 &&
  m.bankN.vel[8]? == some 0x40E75C29#32

/-- R30: the configuration is one that the spec gives a meaning to. A configuration that breaks it is refused
(notes/assumptions/8.md). -/
def Memory.wf (m : Memory) : Bool := m.bankN.wf 9 && m.bankW.wf 13 && m.sourceCells

end Sys2Proof.Machine
end

