-- ==== Sys2Proof/Machine/State.lean ====
section
/-! DEFINITION. The state of the block, the ways a step can stop, and the state after reset (10_state.md R10, R14, R16, R19,
R20, R21). -/

namespace Sys2Proof.Machine

/-- Everything the spec gives the block: its configuration, the ROM contents among it (R10, R16, R23; notes/assumptions/1.md),
and the values on the three ports (R14, R19, R20). There is no register, program counter, flag, mode or hidden state (R11, R12, R13, R15, R18, R110). -/
structure State where
  /-- The configuration: the two ROM banks, which are immutable (R16, R39), and the numerics record. Nothing writes it. -/
  config : Configuration
  /-- The value on input port `VARIANT`, driven by the environment (R14). -/
  variant : Variant
  /-- The value on input port `COUNT`, driven by the environment (R19). -/
  count : Count
  /-- The value on output port `VELOCITY` (R20). It is a wire and no register (R18): whatever changes an input changes it with
  the input, so it is the function of the current inputs at every moment (R10, R21; notes/assumptions/4.md). -/
  velocity : F32
  deriving DecidableEq, Repr

/-- Faults. There is no constructor: "The set of synchronous exceptions the block can raise is empty." (60_exceptions.md
R100; R116: a step "never faults".) -/
inductive Fault where
  deriving DecidableEq, Repr

/-- Refusals. -/
inductive Refusal where
  /-- The instruction has no meaning in the model yet. Raised by no arm of exec: every instruction has its meaning. Safe. -/
  | notModelled (mnemonic : String)
  /-- The ROM contents break 20_memory.md R30: "outside the spec (the model should refuse it, not give it a meaning)".
  Raised by both meanings, before any effect. Safe: the spec gives such a configuration no behaviour. -/
  | romConfiguration
  deriving DecidableEq, Repr

/-- The machine "after reset". The block has no reset (70_reset_and_hazards.md R120): the ROMs hold the contents of R27 and
R28 (R21); the inputs are whatever the environment drives, here NarrowRange and 0 (notes/assumptions/3.md); `VELOCITY` is
the function of these inputs, which is VEL_N[0] = 0x00000000 (R21; notes/assumptions/4.md). -/
def State.reset : State where
  config := defaultConfiguration
  variant := .narrowRange
  count := 0#16
  velocity := 0x00000000#32

end Sys2Proof.Machine
end

