-- ==== Sys2Proof/Machine/Ops.lean ====
section
/-! DEFINITION. The named operations over the ROMs and the ports: the table select and the ROM read primitives
(40_table_select.md R60, R61, R62; 20_memory.md R31), and the ports (10_state.md R14, R19, R20). Taking an exception and
returning from one have no operation here, because the block has neither (60_exceptions.md R100, R105, R106). -/

namespace Sys2Proof.Machine

/-- The ROM banks of a state's configuration. -/
abbrev State.rom (s : State) : Memory := s.config.rom

/-- The numerics record of a state's configuration (00_scope.md R5, 10_state.md R23). -/
def State.numerics (s : State) : Numerics := numericsOf s.config.num

/-- `N(v)`, the number of nodes of a variant's table (00_scope.md section 5.2). -/
def nodes : Variant → Nat
  | .narrowRange => 9
  | .wideRange => 13

/-- What SELECT hands on: both arrays of one bank and the number of its nodes, all at once (R60). -/
structure Selection where
  c : List Count
  v : List F32
  n : Nat
  deriving DecidableEq, Repr

/-- SELECT, the variant multiplexer (R60). -/
def select (m : Memory) : Variant → Selection
  | .narrowRange => { c := m.bankN.cnt, v := m.bankN.vel, n := 9 }
  | .wideRange => { c := m.bankW.cnt, v := m.bankW.vel, n := 13 }

/-- The bank that a variant selects (R16). -/
def Memory.bank (m : Memory) : Variant → Bank
  | .narrowRange => m.bankN
  | .wideRange => m.bankW

/-- `CNT(v, i)` (R31). It is `none` for an index beyond the array, which no rule generates when the configuration meets R30
(R32). -/
def readCnt (m : Memory) (v : Variant) (i : Nat) : Option Count := (select m v).c[i]?

/-- `VEL(v, i)` (R31). -/
def readVel (m : Memory) (v : Variant) (i : Nat) : Option F32 := (select m v).v[i]?

/-- A node: a count and a velocity (00_scope.md section 5.4). -/
structure Node where
  c : Count
  v : F32
  deriving DecidableEq, Repr

/-- Node `i` of the selected bank: both halves, as stored (R25, R61). -/
def readNode (t : Selection) (i : Nat) : Option Node :=
  match t.c[i]?, t.v[i]? with
  | some c, some v => some { c := c, v := v }
  | _, _ => none

/-- READ2: nodes `i` and `i + 1` of the selected bank (R61). -/
def read2 (t : Selection) (i : Nat) : Option (Node × Node) :=
  match readNode t i, readNode t (i + 1) with
  | some lower, some upper => some (lower, upper)
  | _, _ => none

/-- END: the first and the last node of the selected bank (R62). -/
def readEnds (t : Selection) : Option (Node × Node) :=
  match readNode t 0, readNode t (t.n - 1) with
  | some first, some last => some (first, last)
  | _, _ => none

/-- The request word on the input ports (30_encoding.md R45). -/
def request (s : State) : RequestWord := variantBit s.variant ++ s.count

/-- The two input ports take these values. The output follows in the same moment: `drive` in Machine/Interpolate.lean. -/
def setInputs (v : Variant) (c : Count) (s : State) : State := { s with variant := v, count := c }

/-- `VELOCITY <- f`: drive the output port (00_scope.md section 5.2). -/
def driveVelocity (f : F32) (s : State) : State := { s with velocity := f }

end Sys2Proof.Machine
end

