-- ==== Sys2Proof/Machine/Operands.lean ====
section
/-! DEFINITION. What is done with the one operand, `count` (30_encoding.md R48): it is compared as a 16-bit unsigned integer
with the counts of the selected bank (41_segment_search.md R70, R71, R73) and it is widened for the arithmetic
(42_interpolate.md R86, in Machine/Interpolate.lean). It is not masked, scaled, shifted or extended. -/

namespace Sys2Proof.Machine

/-- The three classes of a count (R70). -/
inductive CountClass where
  /-- At or below the first node. -/
  | low
  /-- At or above the last node. -/
  | high
  /-- Strictly between the end nodes. -/
  | seg
  deriving DecidableEq, Repr

/-- CLASSIFY (R70), given the counts of the end nodes. The equalities belong to the clamp classes. -/
def classify (count first last : Count) : CountClass :=
  if count.toNat ≤ first.toNat then .low
  else if last.toNat ≤ count.toNat then .high
  else .seg

/-- `C[i] <= uint(count) < C[i+1]`: segment `i` of the counts `cs` holds the count (R71, R72). -/
def holds (cs : List Count) (count : Count) (i : Nat) : Bool :=
  match cs[i]?, cs[i + 1]? with
  | some lower, some upper => decide (lower.toNat ≤ count.toNat) && decide (count.toNat < upper.toNat)
  | _, _ => false

/-- BRACKET (R71): the index in 0 .. N-2 whose segment holds the count. It is unique when the counts increase, so the order
in which the indices are tried is of no account (R74). -/
def bracket (t : Selection) (count : Count) : Option Nat :=
  (List.range (t.n - 1)).find? (holds t.c count)

end Sys2Proof.Machine
end

