-- ==== Sys2Proof/Machine/Interpolate.lean ====
section
/-! DEFINITION. The datapath steps LERP, CLAMP_LO and CLAMP_HI (42_interpolate.md R82, R83, R84) and the two operations that
compose all steps, INTERP.N and INTERP.W (R80, R81). The datapath takes the numerics record as an argument (00_scope.md
R5, 10_state.md R23); the two meanings apply it to the record of the configuration. The output follows the inputs at
every moment (10_state.md R10, R21), so what drives the input ports stands here too. -/

namespace Sys2Proof.Machine

/-- The values on the wires of LERP, named as in R82. -/
structure LerpWires where
  x : F32
  a : F32
  b : F32
  t1 : F32
  t2 : F32
  t3 : F32
  t4 : F32
  t5 : F32
  y : F32
  deriving DecidableEq, Repr

/-- LERP (R82), wire by wire: the source's formula in the order written, nothing fused. -/
def lerpWires (num : Numerics) (count c0 : Count) (v0 : F32) (c1 : Count) (v1 : F32) : LerpWires :=
  let x := num.cvt count
  let a := num.cvt c0
  let b := num.cvt c1
  let t1 := num.sub x a
  let t2 := num.sub v1 v0
  let t3 := num.mul t1 t2
  let t4 := num.sub b a
  let t5 := num.div t3 t4
  { x := x, a := a, b := b, t1 := t1, t2 := t2, t3 := t3, t4 := t4, t5 := t5, y := num.add v0 t5 }

/-- LERP (R82): two-point linear interpolation. -/
def lerp (num : Numerics) (count c0 : Count) (v0 : F32) (c1 : Count) (v1 : F32) : F32 :=
  (lerpWires num count c0 v0 c1 v1).y

/-- CLAMP_LO (R83): the velocity of the first node, bit for bit. -/
def clampLo (first : Node) : F32 := first.v

/-- CLAMP_HI (R84): the velocity of the last node, bit for bit. -/
def clampHi (last : Node) : F32 := last.v

/-- The class SEG of R80 and R81: BRACKET, READ2, LERP. -/
def interpolateInside (num : Numerics) (t : Selection) (count : Count) : Option F32 :=
  match bracket t count with
  | none => none
  | some i =>
    match read2 t i with
    | none => none
    | some (lower, upper) => some (lerp num count lower.c lower.v upper.c upper.v)

/-- The function `interpolate` on a selected bank (R80, R81 after SELECT). It is `none` only for contents that break R30. -/
def interpolate (num : Numerics) (t : Selection) (count : Count) : Option F32 :=
  match readEnds t with
  | none => none
  | some (first, last) =>
    match classify count first.c last.c with
    | .low => some (clampLo first)
    | .high => some (clampHi last)
    | .seg => interpolateInside num t count

/-- One evaluation (10_state.md R22): refuse a configuration that breaks R30 before any effect (R116), select the bank,
interpolate, drive `VELOCITY`. The branch without a value is never taken when R30 holds (20_memory.md R32;
notes/assumptions/8.md). -/
def evaluate (num : Numerics) (v : Variant) (count : Count) (s : State) : Host.Outcome State Fault Refusal :=
  if s.rom.wf then
    match interpolate num (select s.rom v) count with
    | some y => .next (driveVelocity y s)
    | none => .refused .romConfiguration
  else .refused .romConfiguration

/-- The evaluation of an operation with a numerics record as its argument (10_state.md R23). -/
def execWith (num : Numerics) (i : Instr) (s : State) : Host.Outcome State Fault Refusal :=
  evaluate num i.variant i.count s

/-- The step function with a numerics record as its argument (10_state.md R23): the evaluation of the request on the ports. -/
def stepWith (num : Numerics) (s : State) : Host.Outcome State Fault Refusal := execWith num (decode (request s)) s

/-- The output as the function of the current inputs, the ROM contents and the numerics record, and of nothing else (10_state.md
R10). The spec gives contents that break R30 no output. -/
def output (s : State) : Option F32 :=
  if s.rom.wf then interpolate s.numerics (select s.rom s.variant) s.count else none

/-- The output wire follows the inputs (10_state.md R21). Where the spec gives no output the field is left, and every step is
refused. -/
def follow (s : State) : State :=
  match output s with
  | some y => driveVelocity y s
  | none => s

/-- The environment drives the input ports (70_reset_and_hazards.md R122), and in the same moment the output is the function of
the new inputs: "at every moment, reset or not, it is the function of the current inputs" (10_state.md R21). -/
def drive (v : Variant) (c : Count) (s : State) : State := follow (setInputs v c s)

/-- The environment presents the request word `w` (30_encoding.md R45). -/
def presentWord (w : RequestWord) (s : State) : State := drive (variantOfBit (variantField w)) (countField w) s

/-- `INTERP.N count` (R80): interpolate in the narrow-range table. -/
def execInterpN (count : Count) (s : State) : Host.Outcome State Fault Refusal :=
  evaluate s.numerics .narrowRange count s

/-- `INTERP.W count` (R81): interpolate in the wide-range table. -/
def execInterpW (count : Count) (s : State) : Host.Outcome State Fault Refusal :=
  evaluate s.numerics .wideRange count s

end Sys2Proof.Machine
end

