-- ==== Sys2Proof/Machine/Dispatch.lean ====
section
/-! DEFINITION. The dispatch: one arm per operation of the map (30_encoding.md R49). -/

namespace Sys2Proof.Machine

def exec (i : Instr) (s : State) : Host.Outcome State Fault Refusal :=
  match i with
  | .interpN count => Sys2Proof.Machine.execInterpN count s
  | .interpW count => Sys2Proof.Machine.execInterpW count s

end Sys2Proof.Machine
end

