-- ==== Sys2Proof/Machine/Step.lean ====
section
/-! DEFINITION. One step: the evaluation of the request word on the input ports (10_state.md R22). There is no fetch and no
program counter (R12). -/

namespace Sys2Proof.Machine

/-- One step is one evaluation of the request on the ports (R22, R45). -/
def step (s : State) : Host.Outcome State Fault Refusal := exec (decode (request s)) s

/-- `s` with the request word `w` on its input ports, which is where the next step takes its request
(notes/assumptions/14.md); the output wire follows the inputs (R21). Bits of `w` above `nbits` or above bit 16 are dropped (notes/assumptions/15.md). -/
def State.withFetchWord (s : State) (nbits w : Nat) : State := presentWord (BitVec.ofNat 17 (w % 2 ^ nbits)) s

end Sys2Proof.Machine
end

