-- ==== Sys2Proof/Machine/Assembly.lean ====
section
/-! DEFINITION. The spec's assembly notation (30_encoding.md R52, R53): the text of a line, the line's operation, and the
text of a result. A text is a list of characters. -/

namespace Sys2Proof.Machine

/-- The value of a decimal or hexadecimal digit. -/
def digitValue (ch : Char) : Option Nat :=
  let k := ch.toNat
  if 48 ≤ k ∧ k ≤ 57 then some (k - 48)
  else if 97 ≤ k ∧ k ≤ 102 then some (k - 87)
  else if 65 ≤ k ∧ k ≤ 70 then some (k - 55)
  else none

/-- The number written by `digits` in `base`, after `acc`. -/
def readDigits (base acc : Nat) : List Char → Option Nat
  | [] => some acc
  | ch :: rest =>
    match digitValue ch with
    | some k => if k < base then readDigits base (base * acc + k) rest else none
    | none => none

/-- A literal: decimal, or hexadecimal after `0x` (R52). -/
def readLiteral : List Char → Option Nat
  | [] => none
  | '0' :: 'x' :: [] => none
  | '0' :: 'x' :: digits => readDigits 16 0 digits
  | digits => readDigits 10 0 digits

/-- `<variant>` of the pseudo-instruction: a tag, or 0 or 1 (R53). -/
def readVariant (word : List Char) : Option Variant :=
  if word = "NarrowRange".toList ∨ word = "0".toList then some .narrowRange
  else if word = "WideRange".toList ∨ word = "1".toList then some .wideRange
  else none

/-- The words of a line: blanks part them, a comma is a word of its own, and `;` begins a comment. -/
def wordsFrom (pending : List Char) : List Char → List (List Char)
  | [] => if pending = [] then [] else [pending]
  | ch :: rest =>
    let done := if pending = [] then [] else [pending]
    if ch = ';' then done
    else if ch = ' ' then done ++ wordsFrom [] rest
    else if ch = ',' then done ++ [','] :: wordsFrom [] rest
    else wordsFrom (pending ++ [ch]) rest

/-- The line that a text writes (R52, R53). -/
def readLine (text : List Char) : Option AsmLine :=
  match wordsFrom [] text with
  | [m, lit] =>
    if m = "INTERP.N".toList then (readLiteral lit).map .interpN
    else if m = "INTERP.W".toList then (readLiteral lit).map .interpW
    else none
  | [m, v, comma, lit] =>
    if m = "INTERP".toList ∧ comma = [','] then
      match readVariant v, readLiteral lit with
      | some tag, some n => some (.interp tag n)
      | _, _ => none
    else none
  | _ => none

/-- The operation of a line; an ill-formed line has none. The pseudo-instruction expands to the operation of its variant
(R53). -/
def assemble (l : AsmLine) : Option Instr :=
  if l.wf then
    match l with
    | .interpN n => some (.interpN (BitVec.ofNat 16 n))
    | .interpW n => some (.interpW (BitVec.ofNat 16 n))
    | .interp v n => some (interp v (BitVec.ofNat 16 n))
  else none

/-- The hexadecimal digit of a number below 16. -/
def hexDigit (k : Nat) : Char := if k < 10 then Char.ofNat (48 + k) else Char.ofNat (55 + k)

/-- A result as R52 writes it: `0x` and the eight hexadecimal digits of `VELOCITY`. -/
def showResult (f : F32) : List Char :=
  '0' :: 'x' :: [7, 6, 5, 4, 3, 2, 1, 0].map (fun j => hexDigit (f.toNat / 16 ^ j % 16))

end Sys2Proof.Machine
end

