-- ==== Sys2Proof/Machine/Environment.lean ====
section
/-! DEFINITION. The environment's side (00_scope.md section 5.4, 70_reset_and_hazards.md R122): it forms the count from the
sensor frame (20_memory.md R33), presents a request and reads the result, and does so again for each line of a program
(30_encoding.md R52, R53). These are no operations of the block. -/

namespace Sys2Proof.Machine

/-- The count of a sensor frame: `COUNT[15:8]` is the count-high byte, `COUNT[7:0]` the count-low byte (R33). -/
def countOfFrame (f : Frame) : Count := f.countHigh ++ f.countLow

/-- The request that the driver's `readMeasurement` makes of a frame (R53). -/
def measure (v : Variant) (f : Frame) : Instr := interp v (countOfFrame f)

/-- The environment presents an operation on the input ports. -/
def present (i : Instr) (s : State) : State := drive i.variant i.count s

/-- The environment presents an operation, and the block evaluates it. -/
def serve (i : Instr) (s : State) : Host.Outcome State Fault Refusal := step (present i s)

/-- A program is a sequence of requests, and its meaning is the sequence of results in the same order (R52). The state after
the last one is given too. It is `none` if a request is not answered. -/
def respond : List Instr → State → Option (List F32 × State)
  | [], s => some ([], s)
  | i :: program, s =>
    match serve i s with
    | .next t =>
      match respond program t with
      | some (results, u) => some (t.velocity :: results, u)
      | none => none
    | .fault _ => none
    | .refused _ => none

end Sys2Proof.Machine
end

