-- ==== Sys2Proof/Machine/Monotone.lean ====
section
/-! DEFINITION. The checks of monotonicity for a pair of ROM contents and numerics record. 42_interpolate.md R89: for contents
other than the default "the property across nodes is an obligation on the pair (ROM, `NUM`) that the model must check or
assume by name" (93_implementation_defined.md U9 too). The property by name is `RisesWithTheCount` in Safety.lean; here are
its two checks. No evaluation rests on them. -/

namespace Sys2Proof.Machine

/-- The result at count `c` is at most the result at count `c'`, as `F32` values. -/
def resultsInOrder (num : Numerics) (m : Memory) (v : Variant) (c c' : Count) : Bool :=
  match interpolate num (select m v) c, interpolate num (select m v) c' with
  | some y, some y' => Binary32.le y y'
  | _, _ => false

/-- The check for any pair: every two neighbouring counts of 0 .. 65535 have their results in order. -/
def risesAtEveryCount (num : Numerics) (m : Memory) (v : Variant) : Bool :=
  (List.range 65535).all fun k => resultsInOrder num m v (BitVec.ofNat 16 k) (BitVec.ofNat 16 (k + 1))

/-- Across the upper node of segment `i`: LERP at the last count before the node does not exceed the node's velocity. -/
def risesAcrossNode (num : Numerics) (t : Selection) (i : Nat) : Bool :=
  match read2 t i with
  | some (lower, upper) => Binary32.le (lerp num (upper.c - 1#16) lower.c lower.v upper.c upper.v) upper.v
  | none => false

/-- The property across nodes (R89), node by node: with the default numerics it decides monotonicity, since within a segment
the result rises by itself. -/
def risesAcrossNodes (num : Numerics) (m : Memory) (v : Variant) : Bool :=
  (List.range (nodes v - 1)).all (risesAcrossNode num (select m v))

end Sys2Proof.Machine
end

