-- ==== Sys2Proof/Safety.lean ====
section
/-! DEFINITION. The terms claims are stated in: when a state is legal, the invariant of a run, and the exact values that the
rounded datapath is held against (42_interpolate.md R93). -/

namespace Sys2Proof.Machine

/-- No stored velocity has its sign bit set: every one is +0 or greater, and none is -0. R20 and R88 are meant for such tables
(notes/assumptions/10.md). -/
def Memory.signsClear (m : Memory) : Bool :=
  (m.bankN.vel ++ m.bankW.vel).all (fun v => !Binary32.signBit v)

/-- No stored velocity exceeds 2^100: a bound that every physical table meets and that keeps the datapath from overflowing
(R91; notes/assumptions/9.md). -/
def Memory.moderate (m : Memory) : Bool :=
  (m.bankN.vel ++ m.bankW.vel).all (fun v => decide (Binary32.magnitude v ≤ 0x71800000))

/-- The invariant of a run with a legal table of non-negative velocities and the default numerics: the contents meet R30 and
the output is a value that is neither a NaN nor negative, nor -0 (10_state.md R20, 42_interpolate.md R92). -/
abbrev State.Sound (s : State) : Prop :=
  s.config.num = .standard ∧ s.rom.wf = true ∧ s.rom.signsClear = true ∧ Binary32.isNaN s.velocity = false ∧ Binary32.signBit s.velocity = false

/-- The invariant of a run with the default configuration: the output lies in [0.0, 15.0], the range of both variants (R90). -/
abbrev State.InRange (s : State) : Prop :=
  s.config = defaultConfiguration ∧ Binary32.le 0x00000000#32 s.velocity = true ∧ Binary32.le s.velocity 0x41700000#32 = true

/-- The output is the function of the current inputs and the configuration (10_state.md R10, R21). Every state that the
environment or a step makes of one whose contents meet R30 is such a state. -/
abbrev State.Settled (s : State) : Prop := output s = some s.velocity

/-- The property that 42_interpolate.md R89 asks a claim to check or to assume by name for a pair of ROM contents and numerics
record: over all counts of a variant the result does not decrease. Its checks are in Machine/Monotone.lean. -/
def RisesWithTheCount (num : Numerics) (m : Memory) (v : Variant) : Prop :=
  ∀ c c' : Count, c.toNat < c'.toNat → resultsInOrder num m v c c' = true

/-- The rational value of a finite pattern. -/
def value (a : F32) : ℚ := (Binary32.units a : ℚ) / 2 ^ 149

/-- The source's formula in exact arithmetic on the stored values: `E` of R93 in class SEG. -/
def exactLerp (count c0 : Count) (v0 : F32) (c1 : Count) (v1 : F32) : ℚ :=
  value v0 + ((count.toNat : ℚ) - c0.toNat) * (value v1 - value v0) / ((c1.toNat : ℚ) - c0.toNat)

/-- `r` is `f32(x)` (00_scope.md section 5.1): the binary32 value nearest to the rational `x`, on a tie the one whose last
fraction bit is 0; finite exactly when `x` is nearer to zero than half a unit in the last place above the largest finite
value, (2^25 - 1) * 2^252 units of 2^-149, and otherwise the infinity; and with the sign of `x` unless `x` is 0. -/
structure RoundsTo (r : F32) (x : ℚ) : Prop where
  not_nan : Binary32.isNaN r = false
  finite_iff : Binary32.isFinite r = true ↔ |x| < (2 ^ 25 - 1) * 2 ^ 252 / 2 ^ 149
  nearest : Binary32.isFinite r = true → ∀ c : F32, Binary32.isFinite c = true → |value r - x| ≤ |value c - x|
  ties_to_even : Binary32.isFinite r = true → ∀ c : F32, Binary32.isFinite c = true → value c ≠ value r →
    |value r - x| = |value c - x| → Binary32.fraction r % 2 = 0
  sign : x ≠ 0 → Binary32.signBit r = decide (x < 0)

/-- The four identities of a numerics record from which exactness at the nodes follows (41_segment_search.md R72), `add(a, +0) = a` for every finite `a` but -0, where IEEE 754
gives +0, and `mul(+0, b) = +0` for `b` at least +0 (notes/assumptions/10.md). -/
structure NodeIdentities (num : Numerics) : Prop where
  sub_self : ∀ a, Binary32.isFinite a = true → num.sub a a = 0x00000000#32
  mul_zero : ∀ b, Binary32.isFinite b = true → Binary32.signBit b = false → num.mul 0x00000000#32 b = 0x00000000#32
  zero_div : ∀ d, Binary32.lt 0x00000000#32 d = true → num.div 0x00000000#32 d = 0x00000000#32
  add_zero : ∀ a, Binary32.isFinite a = true → a ≠ 0x80000000#32 → num.add a 0x00000000#32 = a

end Sys2Proof.Machine
end

