-- ==== Sys2Proof/Certificates/Slice0/Obligations.lean ====
section
/-! DEFINITION. The statements for the provers. Each docstring names the rule of spec/ that the statement formalises. Every
statement about an evaluation holds for every contents of the ROM banks that meet 20_memory.md R30 and for every numerics
record of the configuration (00_scope.md R5); where one is about the default contents (91_not_in_source.md N1) or about the
default record of 42_interpolate.md R85 it says so. -/

open Sys2Proof Sys2Proof.Machine

/- ## Encoding -/

/-- R45: the request word is VARIANT and COUNT, no bit of it is dropped, and no bit but these is looked at. -/
def Obligations.EncodeAndDecodeAreInverse : Prop :=
  (∀ i : Instr, decode (encode i) = i) ∧ (∀ w : RequestWord, encode (decode w) = w)

/-- R49: the two rows of the operation map partition the 17-bit words, and a word decodes to its row's operation with bits
15:0 as the operand. -/
def Obligations.OpcodeRowsPartitionTheRequestWords : Prop :=
  ∀ w : RequestWord,
    (∃! r : OpcodeRow, r ∈ opcodeTable ∧ w &&& r.mask = r.pattern) ∧
    (∀ r ∈ opcodeTable, w &&& r.mask = r.pattern → (decode w).mnemonic = r.mnemonic) ∧
    (decode w).count = w.extractLsb' 0 16

/-- R45, R49, and words of 95_test_vectors.md sections 2 and 3. -/
def Obligations.WordsOfTheSpecDecode : Prop :=
  decode 0x00000#17 = .interpN 0#16 ∧ decode 0x0038D#17 = .interpN 909#16 ∧ decode 0x0FFFF#17 = .interpN 65535#16 ∧
  decode 0x10000#17 = .interpW 0#16 ∧ decode 0x10578#17 = .interpW 1400#16 ∧ decode 0x1FFFF#17 = .interpW 65535#16 ∧
  decodeTableWord 24 0x12710 = some (.interpW 10000#16)

/-- R50: all 2^17 request words are legal and each has exactly one defined result. -/
def Obligations.EveryRequestWordHasOneResult : Prop :=
  ∀ (w : RequestWord) (s : State), s.rom.wf = true → ∃! y : F32, exec (decode w) s = .next (driveVelocity y s)

/-- R52, R53: what a line of the assembly notation assembles to, and the words it stands for. -/
def Obligations.AssemblyLinesExpand : Prop :=
  (∀ n : Nat, n ≤ 65535 →
    (∃ i, assemble (.interpN n) = some i ∧ (encode i).toNat = 0x00000 + n) ∧
    (∃ i, assemble (.interpW n) = some i ∧ (encode i).toNat = 0x10000 + n) ∧
    assemble (.interp .narrowRange n) = assemble (.interpN n) ∧
    assemble (.interp .wideRange n) = assemble (.interpW n)) ∧
  (∀ (v : Variant) (n : Nat), 65535 < n →
    assemble (.interpN n) = none ∧ assemble (.interpW n) = none ∧ assemble (.interp v n) = none)

/-- R33: the count is big-endian from frame bytes 1 and 2, and the other three bytes do not matter. -/
def Obligations.CountIsBigEndianFromTheFrame : Prop :=
  (∀ f : Frame, (countOfFrame f).toNat = 256 * f.countHigh.toNat + f.countLow.toNat ∧
    (countOfFrame f).extractLsb' 8 8 = f.countHigh ∧ (countOfFrame f).extractLsb' 0 8 = f.countLow) ∧
  (∀ f g : Frame, f.countHigh = g.countHigh → f.countLow = g.countLow → countOfFrame f = countOfFrame g)

/- ## The step and the state -/

/-- R22, R45: a step evaluates the request on the ports: when the word there decodes to `i`, the step is `exec` of `i`, and
nothing is done around it. An operation presented on the ports is the one that the step runs. -/
def Obligations.StepRunsTheRequestOnThePorts : Prop :=
  (∀ (s : State) (i : Instr), decode (request s) = i → step s = exec i s) ∧
  (∀ (s : State) (i : Instr), request (present i s) = encode i ∧ step (present i s) = exec i (present i s))

/-- The word that `withFetchWord` places for the next step is the request on the ports, and the step runs it. How a word is
placed is THE MODEL'S CHOICE (notes/assumptions/14.md, DESIGN CHOICE): the block fetches nothing (R12), so the word is driven
on the input ports. -/
def Obligations.PlacedWordIsRunNext : Prop :=
  ∀ (s : State) (w : RequestWord),
    request (s.withFetchWord 24 w.toNat) = w ∧
    step (s.withFetchWord 24 w.toNat) = exec (decode w) (s.withFetchWord 24 w.toNat)

/-- R116, R100: a step on contents that meet R30 has exactly one outcome, the next result; no step ever faults; and the only
refusal is of contents that break R30. -/
def Obligations.StepHasOneOutcome : Prop :=
  (∀ s : State, s.rom.wf = true → ∃ t, step s = .next t) ∧
  (∀ (s : State) (f : Fault), step s ≠ .fault f) ∧
  (∀ (s : State) (r : Refusal), step s = .refused r → r = .romConfiguration ∧ s.rom.wf = false)

/-- R80, R81, R14, R23, R39: the frame of both operations. An evaluation that answers a next state has driven `VELOCITY` and
changed nothing else: both input ports, the configuration and every element of both banks, read one by one, are as before. -/
def Obligations.EvaluationChangesOnlyVelocity : Prop :=
  ∀ (i : Instr) (s t : State), exec i s = .next t →
    t.variant = s.variant ∧ t.count = s.count ∧ t.config = s.config ∧
    ∀ (v : Variant) (k : Nat), readCnt t.rom v k = readCnt s.rom v k ∧ readVel t.rom v k = readVel s.rom v k

/-- R10, R18: no evaluation reads what an earlier one drove. -/
def Obligations.VelocityIsNeverRead : Prop :=
  ∀ (i : Instr) (s : State) (f : F32), exec i (driveVelocity f s) = exec i s ∧ step (driveVelocity f s) = step s

/-- R10, R18, R21: the output follows the inputs at every moment. Whatever the environment drives, presents or places, on legal
contents the inputs have the new values, nothing of the configuration has changed, and `VELOCITY` is already the function of
the new inputs, whatever it was before; and in such a state an evaluation changes nothing at all, so no step writes a storage
element. -/
def Obligations.OutputFollowsTheInputs : Prop :=
  ∀ s : State, s.rom.wf = true →
    (∀ (v : Variant) (c : Count) (f : F32), (drive v c s).Settled ∧ (drive v c s).variant = v ∧ (drive v c s).count = c ∧
      (drive v c s).config = s.config ∧ drive v c (driveVelocity f s) = drive v c s) ∧
    (∀ i : Instr, (present i s).Settled) ∧
    (∀ w : RequestWord, (presentWord w s).Settled ∧ (s.withFetchWord 24 w.toNat).Settled) ∧
    (s.Settled → step s = .next s)

/-- R5, R23: `NUM` is a parameter of the step function. `exec` and `step` are those with a numerics record as an argument,
applied to the record of the configuration; the default configuration's record is the default one; and no step changes the
configuration. -/
def Obligations.NumericsAreAParameterOfTheStep : Prop :=
  (∀ (s : State) (i : Instr), exec i s = execWith s.numerics i s ∧ step s = stepWith s.numerics s) ∧
  (∀ s : State, s.config = defaultConfiguration → s.numerics = binary32) ∧
  (∀ s t : State, step s = .next t → t.config = s.config ∧ t.numerics = s.numerics)

/-- R21, R20: after a step `VELOCITY` is the function of the current inputs and the contents, and another step changes
nothing (R18). -/
def Obligations.StepSettlesTheOutput : Prop :=
  ∀ s t : State, step s = .next t → t.Settled ∧ step t = .next t

/-- R21, R27, R28, R120: the reset state. Its configuration is the default one: the ROMs hold the default contents, which meet R30, and `VELOCITY` is the function of
the inputs. That the inputs are NarrowRange and 0 is the model's choice (notes/assumptions/3.md). -/
def Obligations.ResetStateIsSettled : Prop :=
  State.reset.config = defaultConfiguration ∧ State.reset.rom = defaultMemory ∧ State.reset.rom.wf = true ∧ State.reset.Settled ∧
  step State.reset = .next State.reset

/-- R27, R28, R29: the default contents, cell by cell: each count as its number, each velocity as its bit pattern, which is the
decimal literal rounded to binary32; and the exact values of the stored patterns. -/
def Obligations.StoredCellsAreTheTabledLiterals : Prop :=
  State.reset.rom.bankN.cnt.map BitVec.toNat = [409, 915, 1522, 2066, 2523, 2908, 3256, 3572, 3686] ∧
  State.reset.rom.bankW.cnt.map BitVec.toNat =
    [409, 1203, 1597, 1908, 2187, 2400, 2629, 2801, 3006, 3178, 3309, 3563, 3686] ∧
  State.reset.rom.bankN.vel = [0x00000000#32, 0x3F88F5C3#32, 0x4000A3D7#32, 0x40400000#32, 0x407E147B#32, 0x409EB852#32,
    0x40BF5C29#32, 0x40DFAE14#32, 0x40E75C29#32] ∧
  State.reset.rom.bankW.vel = [0x00000000#32, 0x40000000#32, 0x40400000#32, 0x40800000#32, 0x40A00000#32, 0x40C00000#32,
    0x40E00000#32, 0x41000000#32, 0x41100000#32, 0x41200000#32, 0x41300000#32, 0x41500000#32, 0x41700000#32] ∧
  State.reset.rom.bankN.vel = [(0, 1), (107, 100), (201, 100), (3, 1), (397, 100), (496, 100), (598, 100), (699, 100),
    (723, 100)].map (fun p => Binary32.ofDecimal p.1 p.2) ∧
  State.reset.rom.bankW.vel = [0, 2, 3, 4, 5, 6, 7, 8, 9, 10, 11, 13, 15].map (fun k => Binary32.ofDecimal k 1) ∧
  State.reset.rom.bankN.vel.map value = [0, 8975811 / 8388608, 8430551 / 4194304, 3, 16651387 / 4194304,
    5200937 / 1048576, 12540969 / 2097152, 3664773 / 524288, 15162409 / 2097152] ∧
  State.reset.rom.bankW.vel.map value = [0, 2, 3, 4, 5, 6, 7, 8, 9, 10, 11, 13, 15]

/-- R31: the read primitives return the element of the bank that the variant selects, and any number of reads, whatever
was evaluated between them, return the same. -/
def Obligations.ReadsComeFromTheSelectedBank : Prop :=
  (∀ (m : Memory) (i : Nat),
    readCnt m .narrowRange i = m.bankN.cnt[i]? ∧ readCnt m .wideRange i = m.bankW.cnt[i]? ∧
    readVel m .narrowRange i = m.bankN.vel[i]? ∧ readVel m .wideRange i = m.bankW.vel[i]?) ∧
  (∀ (program : List Instr) (s t : State) (results : List F32), respond program s = some (results, t) →
    ∀ (v : Variant) (i : Nat), readCnt t.rom v i = readCnt s.rom v i ∧ readVel t.rom v i = readVel s.rom v i)

/-- R30: the model's check says of every contents what (a) to (e) say, and contents that fail it are refused whatever the
request. -/
def Obligations.ConfigurationCheckIsTheRule : Prop :=
  (∀ (s : State) (i : Instr), s.rom.wf = false → exec i s = .refused .romConfiguration) ∧
  ∀ m : Memory, m.wf = true ↔
    (m.bankN.cnt.length = 9 ∧ m.bankN.vel.length = 9 ∧ m.bankW.cnt.length = 13 ∧ m.bankW.vel.length = 13) ∧
    (∀ (v : Variant) (i : Nat) (p q : Count), readCnt m v i = some p → readCnt m v (i + 1) = some q → p.toNat < q.toNat) ∧
    (∀ (v : Variant) (i : Nat) (p q : F32), readVel m v i = some p → readVel m v (i + 1) = some q →
      Binary32.le p q = true) ∧
    (∀ (v : Variant) (i : Nat) (p : F32), readVel m v i = some p → Binary32.isFinite p = true) ∧
    (readCnt m .narrowRange 0 = some 409#16 ∧ readVel m .narrowRange 0 = some (Binary32.ofDecimal 0 1) ∧
      readCnt m .narrowRange 1 = some 915#16 ∧ readVel m .narrowRange 1 = some (Binary32.ofDecimal 107 100) ∧
      readVel m .narrowRange 8 = some (Binary32.ofDecimal 723 100))

/-- R30, R116: the refusal is about the configuration and not about a request: a state whose contents break R30 is refused at
every step, and driving other values on the ports does not end that. -/
def Obligations.RefusalIsAboutTheConfiguration : Prop :=
  ∀ (s : State) (v : Variant) (c : Count), s.rom.wf = false →
    step s = .refused .romConfiguration ∧ step (drive v c s) = .refused .romConfiguration

/- ## Select, read, classify, bracket -/

/-- R60: SELECT hands on all of a bank at once, and a result depends on nothing else: two states with one numerics record whose selected banks agree, whatever is in the other bank, on the ports and on the output, answer a request alike. -/
def Obligations.ResultDependsOnlyOnTheSelectedBank : Prop :=
  (∀ m : Memory, select m .narrowRange = { c := m.bankN.cnt, v := m.bankN.vel, n := 9 } ∧
    select m .wideRange = { c := m.bankW.cnt, v := m.bankW.vel, n := 13 }) ∧
  (readCnt defaultMemory .wideRange 1 = some 1203#16 ∧ readVel defaultMemory .wideRange 1 = some 0x40000000#32) ∧
  (∀ (count : Count) (s s' t t' : State), s.rom.bankN = s'.rom.bankN → s.numerics = s'.numerics → exec (.interpN count) s = .next t →
    exec (.interpN count) s' = .next t' → t.velocity = t'.velocity) ∧
  (∀ (count : Count) (s s' t t' : State), s.rom.bankW = s'.rom.bankW → s.numerics = s'.numerics → exec (.interpW count) s = .next t →
    exec (.interpW count) s' = .next t' → t.velocity = t'.velocity)

/-- R61: READ2 returns the two nodes of a segment as stored; the counts increase and the velocities do not decrease. -/
def Obligations.Read2ReturnsTheBracketingNodes : Prop :=
  (∀ (m : Memory) (v : Variant) (i : Nat), m.wf = true → i ≤ nodes v - 2 →
    ∃ c0 v0 c1 v1, read2 (select m v) i = some (⟨c0, v0⟩, ⟨c1, v1⟩) ∧
      readCnt m v i = some c0 ∧ readVel m v i = some v0 ∧ readCnt m v (i + 1) = some c1 ∧ readVel m v (i + 1) = some v1 ∧
      c0.toNat < c1.toNat ∧ Binary32.le v0 v1 = true) ∧
  read2 (select defaultMemory .narrowRange) 0 = some (⟨409#16, 0x00000000#32⟩, ⟨915#16, 0x3F88F5C3#32⟩)

/-- R62: END reads the first and the last node of the selected bank; with the default contents those of the rule. -/
def Obligations.EndNodesAreTheFirstAndTheLast : Prop :=
  (∀ (m : Memory) (v : Variant), m.wf = true →
    ∃ c0 v0 cl vl, readEnds (select m v) = some (⟨c0, v0⟩, ⟨cl, vl⟩) ∧
      readCnt m v 0 = some c0 ∧ readVel m v 0 = some v0 ∧
      readCnt m v (nodes v - 1) = some cl ∧ readVel m v (nodes v - 1) = some vl) ∧
  readEnds (select defaultMemory .narrowRange) = some (⟨409#16, 0x00000000#32⟩, ⟨3686#16, 0x40E75C29#32⟩) ∧
  readEnds (select defaultMemory .wideRange) = some (⟨409#16, 0x00000000#32⟩, ⟨3686#16, 0x41700000#32⟩)

/-- R32: the indices that an evaluation generates are legal: the two ends, and a segment and its successor. -/
def Obligations.GeneratedIndicesAreLegal : Prop :=
  ∀ (m : Memory) (v : Variant) (count : Count), m.wf = true →
    (∃ first last, readEnds (select m v) = some (first, last)) ∧
    (∀ i, bracket (select m v) count = some i → i ≤ nodes v - 2 ∧
      ∃ lower upper, read2 (select m v) i = some (lower, upper))

/-- R70: the three classes are exclusive and exhaustive, the equalities belong to the clamp classes, and the order of the two
tests does not matter. -/
def Obligations.ClassesAreExclusive : Prop :=
  (∀ (m : Memory) (v : Variant) (count first last : Count), m.wf = true → readCnt m v 0 = some first →
    readCnt m v (nodes v - 1) = some last →
    (classify count first last = .low ↔ count.toNat ≤ first.toNat) ∧
    (classify count first last = .high ↔ last.toNat ≤ count.toNat) ∧
    (classify count first last = .seg ↔ first.toNat < count.toNat ∧ count.toNat < last.toNat)) ∧
  (∀ count : Count,
    (classify count 409#16 3686#16 = .low ↔ count.toNat ≤ 409) ∧
    (classify count 409#16 3686#16 = .high ↔ 3686 ≤ count.toNat) ∧
    (classify count 409#16 3686#16 = .seg ↔ 410 ≤ count.toNat ∧ count.toNat ≤ 3685))

/-- R71: a count strictly between the end nodes lies in exactly one segment, BRACKET answers that one, and it is also the
greatest index whose count is no greater, and one less than the number of such indices. -/
def Obligations.BracketIsTheUniqueSegment : Prop :=
  (∀ (m : Memory) (v : Variant) (count first last : Count), m.wf = true → readCnt m v 0 = some first →
    readCnt m v (nodes v - 1) = some last → first.toNat < count.toNat → count.toNat < last.toNat →
    ∃ i, bracket (select m v) count = some i ∧ i ≤ nodes v - 2 ∧
      (∃ c0 c1, readCnt m v i = some c0 ∧ readCnt m v (i + 1) = some c1 ∧ c0.toNat ≤ count.toNat ∧
        count.toNat < c1.toNat) ∧
      (∀ j d0 d1, readCnt m v j = some d0 → readCnt m v (j + 1) = some d1 → d0.toNat ≤ count.toNat →
        count.toNat < d1.toNat → j = i) ∧
      (∀ k c, k ≤ nodes v - 2 → readCnt m v k = some c → c.toNat ≤ count.toNat → k ≤ i) ∧
      (select m v).c.countP (fun c => decide (c.toNat ≤ count.toNat)) = i + 1) ∧
  bracket (select defaultMemory .narrowRange) 909#16 = some 0 ∧
  bracket (select defaultMemory .narrowRange) 915#16 = some 1 ∧
  bracket (select defaultMemory .narrowRange) 3685#16 = some 7 ∧
  bracket (select defaultMemory .wideRange) 2000#16 = some 3

/-- R72: a count equal to an interior node's count is in the segment of which the node is the lower end. -/
def Obligations.InteriorNodeOpensItsSegment : Prop :=
  ∀ (m : Memory) (v : Variant) (k : Nat) (c : Count), m.wf = true → 1 ≤ k → k ≤ nodes v - 2 → readCnt m v k = some c →
    bracket (select m v) c = some k

/-- R73: comparing counts as integers and comparing their widenings agree. -/
def Obligations.WideningKeepsTheOrder : Prop :=
  ∀ a b : Count, (a.toNat ≤ b.toNat ↔ Binary32.le (Binary32.cvt a) (Binary32.cvt b) = true)

/- ## The two operations -/

/-- R80: INTERP.N, its three classes over every legal contents and every numerics record, and its corner cases and its example over the default
contents. -/
def Obligations.InterpNFollowsItsRule : Prop :=
  (∀ (s : State) (count : Count), s.rom.wf = true →
    (∀ c0 v0, readCnt s.rom .narrowRange 0 = some c0 → readVel s.rom .narrowRange 0 = some v0 →
      count.toNat ≤ c0.toNat → exec (.interpN count) s = .next (driveVelocity v0 s)) ∧
    (∀ c8 v8, readCnt s.rom .narrowRange 8 = some c8 → readVel s.rom .narrowRange 8 = some v8 →
      c8.toNat ≤ count.toNat → exec (.interpN count) s = .next (driveVelocity v8 s)) ∧
    (∀ first i c0 v0 c1 v1, readCnt s.rom .narrowRange 0 = some first → first.toNat < count.toNat → i ≤ 7 →
      readCnt s.rom .narrowRange i = some c0 → readVel s.rom .narrowRange i = some v0 →
      readCnt s.rom .narrowRange (i + 1) = some c1 → readVel s.rom .narrowRange (i + 1) = some v1 →
      c0.toNat ≤ count.toNat → count.toNat < c1.toNat →
      exec (.interpN count) s = .next (driveVelocity (lerp s.numerics count c0 v0 c1 v1) s))) ∧
  (∀ (s : State) (count : Count), s.config = defaultConfiguration →
    (count.toNat ≤ 409 → exec (.interpN count) s = .next (driveVelocity 0x00000000#32 s)) ∧
    (3686 ≤ count.toNat → exec (.interpN count) s = .next (driveVelocity 0x40E75C29#32 s)) ∧
    (∀ k y, readCnt s.rom .narrowRange k = some count → readVel s.rom .narrowRange k = some y →
      exec (.interpN count) s = .next (driveVelocity y s)) ∧
    exec (.interpN 909#16) s = .next (driveVelocity 0x3F875602#32 s))

/-- R81: INTERP.W, its three classes over every legal contents and every numerics record, and its corner cases and its example over the default
contents. -/
def Obligations.InterpWFollowsItsRule : Prop :=
  (∀ (s : State) (count : Count), s.rom.wf = true →
    (∀ c0 v0, readCnt s.rom .wideRange 0 = some c0 → readVel s.rom .wideRange 0 = some v0 →
      count.toNat ≤ c0.toNat → exec (.interpW count) s = .next (driveVelocity v0 s)) ∧
    (∀ c12 v12, readCnt s.rom .wideRange 12 = some c12 → readVel s.rom .wideRange 12 = some v12 →
      c12.toNat ≤ count.toNat → exec (.interpW count) s = .next (driveVelocity v12 s)) ∧
    (∀ first i c0 v0 c1 v1, readCnt s.rom .wideRange 0 = some first → first.toNat < count.toNat → i ≤ 11 →
      readCnt s.rom .wideRange i = some c0 → readVel s.rom .wideRange i = some v0 →
      readCnt s.rom .wideRange (i + 1) = some c1 → readVel s.rom .wideRange (i + 1) = some v1 →
      c0.toNat ≤ count.toNat → count.toNat < c1.toNat →
      exec (.interpW count) s = .next (driveVelocity (lerp s.numerics count c0 v0 c1 v1) s))) ∧
  (∀ (s : State) (count : Count), s.config = defaultConfiguration →
    (count.toNat ≤ 409 → exec (.interpW count) s = .next (driveVelocity 0x00000000#32 s)) ∧
    (3686 ≤ count.toNat → exec (.interpW count) s = .next (driveVelocity 0x41700000#32 s)) ∧
    (∀ k y, readCnt s.rom .wideRange k = some count → readVel s.rom .wideRange k = some y →
      exec (.interpW count) s = .next (driveVelocity y s)) ∧
    exec (.interpW 1400#16) s = .next (driveVelocity 0x40200000#32 s))

/-- R83, R84, R70: a clamped result is the velocity of the end node bit for bit, for any numerics record, so no arithmetic is
done. -/
def Obligations.ClampsCopyTheEndVelocity : Prop :=
  (∀ (num : Numerics) (s : State) (v : Variant) (count c : Count) (y : F32), s.rom.wf = true →
    (readCnt s.rom v 0 = some c → readVel s.rom v 0 = some y → count.toNat ≤ c.toNat →
      evaluate num v count s = .next (driveVelocity y s)) ∧
    (readCnt s.rom v (nodes v - 1) = some c → readVel s.rom v (nodes v - 1) = some y → c.toNat ≤ count.toNat →
      evaluate num v count s = .next (driveVelocity y s))) ∧
  readVel defaultMemory .narrowRange 0 = some 0x00000000#32 ∧ readVel defaultMemory .wideRange 0 = some 0x00000000#32 ∧
  readVel defaultMemory .narrowRange 8 = some 0x40E75C29#32 ∧ readVel defaultMemory .wideRange 12 = some 0x41700000#32

/-- R82: the order of the operations of LERP, for any numerics record, and the worked example wire by wire. -/
def Obligations.LerpIsTheWrittenFormula : Prop :=
  (∀ (num : Numerics) (count c0 c1 : Count) (v0 v1 : F32),
    lerp num count c0 v0 c1 v1 = num.add v0 (num.div (num.mul (num.sub (num.cvt count) (num.cvt c0)) (num.sub v1 v0))
      (num.sub (num.cvt c1) (num.cvt c0)))) ∧
  lerpWires binary32 909#16 409#16 0x00000000#32 915#16 0x3F88F5C3#32 =
    { x := 0x44634000#32, a := 0x43CC8000#32, b := 0x4464C000#32, t1 := 0x43FA0000#32, t2 := 0x3F88F5C3#32,
      t3 := 0x4405C000#32, t4 := 0x43FD0000#32, t5 := 0x3F875602#32, y := 0x3F875602#32 }

/-- R52, R39, R124: the meaning of a program is the sequence of its results in the same order, and each is the result of that
request alone, whatever variant and count came before it (R12, R14); the configuration, and so the ROMs, are unchanged. -/
def Obligations.ProgramResultsAreIndependent : Prop :=
  ∀ (program : List Instr) (s : State), s.rom.wf = true →
    ∃ results t, respond program s = some (results, t) ∧ t.config = s.config ∧
      List.Forall₂ (fun i y => exec i s = .next (driveVelocity y s)) program results

/- ## Numerics -/

/-- R85, 00_scope.md section 5.1: `round` gives the binary32 value nearest to the exact one, on a tie the one whose last
fraction bit is 0, and the infinity exactly from half a unit in the last place above the largest finite value on. -/
def Obligations.RoundingIsNearestTiesToEven : Prop :=
  ∀ (negative : Bool) (n d : Nat), 0 < d →
    Binary32.signBit (Binary32.round negative n d) = negative ∧
    Binary32.isNaN (Binary32.round negative n d) = false ∧
    (Binary32.isInfinite (Binary32.round negative n d) = true ↔ (2 ^ 25 - 1) * 2 ^ 252 * d ≤ n) ∧
    (Binary32.isFinite (Binary32.round negative n d) = true → ∀ b : F32, Binary32.isFinite b = true →
      |(Binary32.absUnits (Binary32.round negative n d) : ℚ) - n / d| ≤ |(Binary32.absUnits b : ℚ) - n / d| ∧
      (|(Binary32.absUnits (Binary32.round negative n d) : ℚ) - n / d| = |(Binary32.absUnits b : ℚ) - n / d| →
        Binary32.absUnits b ≠ Binary32.absUnits (Binary32.round negative n d) →
        Binary32.fraction (Binary32.round negative n d) % 2 = 0))

/-- 00_scope.md section 5.3, R85: each of the four operations on finite operands is `f32` of the exact result: nearest, ties to
even, finite exactly below the overflow threshold, with the sign of the exact result. Where the exact result is 0, the sum of
two zeros is -0 only for -0 and -0 and the difference only for -0 and +0, any other zero sum or difference is +0, and a
product or quotient has the sign of IEEE 754. -/
def Obligations.OperationsAreCorrectlyRounded : Prop :=
  ∀ a b : F32, Binary32.isFinite a = true → Binary32.isFinite b = true →
    RoundsTo (Binary32.add a b) (value a + value b) ∧
    RoundsTo (Binary32.sub a b) (value a - value b) ∧
    RoundsTo (Binary32.mul a b) (value a * value b) ∧
    (Binary32.isZero b = false → RoundsTo (Binary32.div a b) (value a / value b)) ∧
    (value a + value b = 0 →
      (Binary32.signBit (Binary32.add a b) = true ↔ a = 0x80000000#32 ∧ b = 0x80000000#32)) ∧
    (value a - value b = 0 →
      (Binary32.signBit (Binary32.sub a b) = true ↔ a = 0x80000000#32 ∧ b = 0x00000000#32)) ∧
    Binary32.signBit (Binary32.mul a b) = (Binary32.signBit a != Binary32.signBit b) ∧
    (Binary32.isZero b = false → Binary32.signBit (Binary32.div a b) = (Binary32.signBit a != Binary32.signBit b))

/-- R86: widening is exact and never negative. -/
def Obligations.WideningIsExact : Prop :=
  ∀ u : Count, Binary32.isFinite (Binary32.cvt u) = true ∧ Binary32.signBit (Binary32.cvt u) = false ∧
    value (Binary32.cvt u) = (u.toNat : ℚ)

/-- R87: the two count differences are exact, and a segment's divisor is at least 1. -/
def Obligations.CountDifferencesAreExact : Prop :=
  ∀ (count c0 c1 : Count) (v0 v1 : F32), c0.toNat ≤ count.toNat → count.toNat < c1.toNat →
    value (lerpWires binary32 count c0 v0 c1 v1).t1 = (count.toNat : ℚ) - c0.toNat ∧
    value (lerpWires binary32 count c0 v0 c1 v1).t4 = (c1.toNat : ℚ) - c0.toNat ∧
    1 ≤ value (lerpWires binary32 count c0 v0 c1 v1).t4

/-- 41_segment_search.md R72, 93_implementation_defined.md G4: the default numerics have the four identities. The last is for
every finite `a` but -0, negative ones too (notes/assumptions/10.md). -/
def Obligations.DefaultNumericsHaveTheNodeIdentities : Prop := NodeIdentities binary32

/-- R72: under any numerics record with the four identities the result at the lower node of a segment is that node's
velocity. -/
def Obligations.LowerNodeIsExactForAnyNumerics : Prop :=
  ∀ (num : Numerics) (c0 c1 : Count) (v0 v1 : F32), NodeIdentities num →
    Binary32.isFinite (num.cvt c0) = true →
    Binary32.isFinite (num.sub v1 v0) = true → Binary32.signBit (num.sub v1 v0) = false →
    Binary32.lt 0x00000000#32 (num.sub (num.cvt c1) (num.cvt c0)) = true →
    Binary32.isFinite v0 = true → v0 ≠ 0x80000000#32 →
    lerp num c0 c0 v0 c1 v1 = v0

/-- R88: the result at every node of both tables is that node's velocity bit for bit, for every legal contents without a set
sign bit (notes/assumptions/10.md says why the premise is there) and the default numerics. -/
def Obligations.NodesAreExact : Prop :=
  ∀ (s : State) (v : Variant) (k : Nat) (c : Count) (y : F32), s.config.num = .standard → s.rom.wf = true → s.rom.signsClear = true →
    readCnt s.rom v k = some c → readVel s.rom v k = some y → exec (interp v c) s = .next (driveVelocity y s)

/-- R82, R30(c): with the default numerics the result is constant over a flat segment. -/
def Obligations.FlatSegmentIsConstant : Prop :=
  ∀ (s : State) (v : Variant) (i : Nat) (c0 c1 count : Count) (y : F32), s.config.num = .standard → s.rom.wf = true → s.rom.signsClear = true →
    readCnt s.rom v i = some c0 → readCnt s.rom v (i + 1) = some c1 → readVel s.rom v i = some y →
    readVel s.rom v (i + 1) = some y → c0.toNat ≤ count.toNat → count.toNat < c1.toNat →
    exec (interp v count) s = .next (driveVelocity y s)

/-- R89: within one segment the result does not decrease as the count increases, for every legal contents without a set sign
bit and the default numerics. -/
def Obligations.ResultsRiseWithinASegment : Prop :=
  ∀ (s t t' : State) (v : Variant) (i : Nat) (c0 c1 count count' : Count), s.config.num = .standard → s.rom.wf = true → s.rom.signsClear = true →
    readCnt s.rom v i = some c0 → readCnt s.rom v (i + 1) = some c1 →
    c0.toNat ≤ count.toNat → count.toNat ≤ count'.toNat → count'.toNat < c1.toNat →
    exec (interp v count) s = .next t → exec (interp v count') s = .next t' →
    Binary32.le t.velocity t'.velocity = true

/-- R89: with the default configuration the result does not decrease over all counts, and it strictly increases over
409 .. 3686. -/
def Obligations.DefaultResultsRiseWithTheCount : Prop :=
  ∀ (s t t' : State) (v : Variant) (count count' : Count), s.config = defaultConfiguration → count.toNat < count'.toNat →
    exec (interp v count) s = .next t → exec (interp v count') s = .next t' →
    Binary32.le t.velocity t'.velocity = true ∧
    (409 ≤ count.toNat → count'.toNat ≤ 3686 → Binary32.lt t.velocity t'.velocity = true)

/-- R89, 93_implementation_defined.md U9: for any legal contents and any numerics record the check at every count says that the
property by name holds, and where it holds the results of exec do not decrease with the count. -/
def Obligations.RisingIsCheckedOrAssumedByName : Prop :=
  (∀ (num : Numerics) (m : Memory) (v : Variant), m.wf = true →
    (risesAtEveryCount num m v = true ↔ RisesWithTheCount num m v)) ∧
  (∀ (s t t' : State) (v : Variant) (count count' : Count), RisesWithTheCount s.numerics s.rom v →
    count.toNat < count'.toNat → exec (interp v count) s = .next t → exec (interp v count') s = .next t' →
    Binary32.le t.velocity t'.velocity = true)

/-- R89: with the default numerics the property across the nodes is all that is left to check: over legal contents without a set
sign bit the check node by node decides whether results rise with the count. -/
def Obligations.CheckAcrossNodesDecidesRising : Prop :=
  ∀ (m : Memory) (v : Variant), m.wf = true → m.signsClear = true →
    (risesAcrossNodes binary32 m v = true ↔ RisesWithTheCount binary32 m v)

/-- R90: no result is below the first node's velocity, for every legal contents without a set sign bit and the default
numerics. -/
def Obligations.ResultsAreNotBelowTheFirstNode : Prop :=
  ∀ (s t : State) (v : Variant) (count : Count) (y : F32), s.config.num = .standard → s.rom.wf = true → s.rom.signsClear = true →
    readVel s.rom v 0 = some y → exec (interp v count) s = .next t → Binary32.le y t.velocity = true

/-- R90: with the default contents every result lies between the velocities of the end nodes: in [0.0, 7.23] for INTERP.N and
in [0.0, 15.0] for INTERP.W. -/
def Obligations.DefaultResultsStayInRange : Prop :=
  ∀ (s : State) (count : Count), s.config = defaultConfiguration →
    (∃ t, exec (.interpN count) s = .next t ∧ Binary32.le 0x00000000#32 t.velocity = true ∧
      Binary32.le t.velocity 0x40E75C29#32 = true) ∧
    (∃ t, exec (.interpW count) s = .next t ∧ Binary32.le 0x00000000#32 t.velocity = true ∧
      Binary32.le t.velocity 0x41700000#32 = true)

/-- R91: for legal contents of non-negative velocities up to 2^100, which a physical table's are, no wire of LERP holds a NaN
or an infinity and the divisor is no zero (notes/assumptions/9.md). -/
def Obligations.ModerateTablesNeverOverflow : Prop :=
  ∀ (m : Memory) (v : Variant) (i : Nat) (count c0 c1 : Count) (v0 v1 : F32), m.wf = true → m.signsClear = true →
    m.moderate = true → readCnt m v i = some c0 → readVel m v i = some v0 → readCnt m v (i + 1) = some c1 →
    readVel m v (i + 1) = some v1 → c0.toNat ≤ count.toNat → count.toNat < c1.toNat →
    let w := lerpWires binary32 count c0 v0 c1 v1
    Binary32.isFinite w.t1 = true ∧ Binary32.isFinite w.t2 = true ∧ Binary32.isFinite w.t3 = true ∧
    Binary32.isFinite w.t4 = true ∧ Binary32.isFinite w.t5 = true ∧ Binary32.isFinite w.y = true ∧
    Binary32.isZero w.t4 = false

/-- R92: for legal contents without a set sign bit no wire of LERP has its sign bit set, so none holds -0, and none holds a
NaN. -/
def Obligations.WiresAreNeverNegative : Prop :=
  ∀ (m : Memory) (v : Variant) (i : Nat) (count c0 c1 : Count) (v0 v1 : F32), m.wf = true → m.signsClear = true →
    readCnt m v i = some c0 → readVel m v i = some v0 → readCnt m v (i + 1) = some c1 → readVel m v (i + 1) = some v1 →
    c0.toNat ≤ count.toNat → count.toNat < c1.toNat →
    let w := lerpWires binary32 count c0 v0 c1 v1
    (∀ f ∈ [w.x, w.a, w.b, w.t1, w.t2, w.t3, w.t4, w.t5, w.y], Binary32.signBit f = false ∧ Binary32.isNaN f = false)

/-- R93: for any segment of non-negative velocities in which no wire overflows and every non-zero `t2`, `t3`, `t5` is normal,
the result is within 4.01 * 2^-24 of the upper velocity from the source's formula in exact arithmetic. -/
def Obligations.RoundedResultIsNearTheExactOne : Prop :=
  ∀ (count c0 c1 : Count) (v0 v1 : F32), c0.toNat ≤ count.toNat → count.toNat < c1.toNat →
    Binary32.isFinite v0 = true → Binary32.isFinite v1 = true → Binary32.signBit v0 = false →
    Binary32.signBit v1 = false → Binary32.le v0 v1 = true →
    let w := lerpWires binary32 count c0 v0 c1 v1
    (∀ f ∈ [w.t2, w.t3, w.t5], Binary32.isZero f = true ∨ Binary32.isNormal f = true) →
    Binary32.isFinite w.y = true →
    |value w.y - exactLerp count c0 v0 c1 v1| ≤ 401 / 100 / 2 ^ 24 * value v1

/-- R93 for the default contents: the bound in terms of the last velocity, at every count between the end nodes. -/
def Obligations.DefaultResultsAreNearTheExactOnes : Prop :=
  ∀ (s t : State) (v : Variant) (i : Nat) (count c0 c1 : Count) (v0 v1 last : F32), s.config = defaultConfiguration →
    409 < count.toNat → readCnt s.rom v i = some c0 → readVel s.rom v i = some v0 → readCnt s.rom v (i + 1) = some c1 →
    readVel s.rom v (i + 1) = some v1 → readVel s.rom v (nodes v - 1) = some last →
    c0.toNat ≤ count.toNat → count.toNat < c1.toNat → exec (interp v count) s = .next t →
    |value t.velocity - exactLerp count c0 v0 c1 v1| ≤ 401 / 100 / 2 ^ 24 * value last

/- ## The invariant -/

/-- R20, R92, R30: every step keeps the invariant that the numerics are the default ones, the contents are legal and without a
set sign bit, and the output is no NaN, not negative and not -0. -/
def Obligations.StepKeepsTheStateSound : Prop :=
  ∀ s t : State, s.Sound → step s = .next t → t.Sound

/-- Both invariants hold in the reset state, whose inputs are the model's choice (notes/assumptions/3.md). -/
def Obligations.ResetStateIsSound : Prop := State.reset.Sound ∧ State.reset.InRange

/-- R90: every step keeps the invariant that the configuration is the default one and the output lies in [0.0, 15.0]. -/
def Obligations.StepKeepsTheOutputInRange : Prop :=
  ∀ s t : State, s.InRange → step s = .next t → t.InRange
end

