-- ==== Sys2Proof/Laws/Binary32.lean ====
section
/-! SUPPORT. The small lemmas of the binary32 format. -/

namespace Sys2Proof.Machine.Binary32

theorem magnitude_lt (a : F32) : magnitude a < 2 ^ 31 := (a.extractLsb' 0 31).isLt

@[simp] theorem signBit_pack (negative : Bool) (mag : Nat) : signBit (pack negative mag) = negative := by
  unfold signBit pack
  rw [BitVec.msb_append]
  cases negative <;> rfl

theorem toNat_pack (negative : Bool) (mag : Nat) :
    (pack negative mag).toNat = negative.toNat * 2 ^ 31 + mag % 2 ^ 31 := by
  unfold pack
  rw [BitVec.toNat_append, BitVec.toNat_ofNat, BitVec.toNat_ofBool,
    ← Nat.shiftLeft_add_eq_or_of_lt (Nat.mod_lt _ (by decide)), Nat.shiftLeft_eq]

theorem magnitude_eq_mod (a : F32) : magnitude a = a.toNat % 2 ^ 31 := by
  unfold magnitude
  rw [BitVec.extractLsb'_toNat, Nat.shiftRight_zero]

theorem magnitude_pack (negative : Bool) {mag : Nat} (h : mag < 2 ^ 31) : magnitude (pack negative mag) = mag := by
  rw [magnitude_eq_mod, toNat_pack]
  omega

/-- Bits 30:0 in two fields (R20). -/
theorem magnitude_eq (a : F32) : magnitude a = exponent a * 2 ^ 23 + fraction a := by
  unfold magnitude exponent fraction
  simp only [BitVec.extractLsb'_toNat, Nat.shiftRight_eq_div_pow]
  omega

theorem fraction_lt (a : F32) : fraction a < 2 ^ 23 := (a.extractLsb' 0 23).isLt

/-- A pattern is its sign and its bits 30:0. -/
theorem pack_signBit_magnitude (a : F32) : pack (signBit a) (magnitude a) = a := by
  apply BitVec.eq_of_toNat_eq
  rw [toNat_pack, magnitude_eq_mod, signBit, BitVec.msb_eq_decide]
  have h := a.isLt
  by_cases ha : 2 ^ (32 - 1) ≤ a.toNat
  · rw [decide_eq_true ha]; simp at ha ⊢; omega
  · rw [decide_eq_false ha]; simp at ha ⊢; omega

/-- Two patterns with the same sign and the same bits 30:0 are one. -/
theorem eq_of_signBit_magnitude {a b : F32} (hs : signBit a = signBit b) (hm : magnitude a = magnitude b) : a = b := by
  rw [← pack_signBit_magnitude a, ← pack_signBit_magnitude b, hs, hm]

@[simp] theorem signBit_negate (a : F32) : signBit (negate a) = !signBit a := signBit_pack _ _

@[simp] theorem magnitude_negate (a : F32) : magnitude (negate a) = magnitude a :=
  magnitude_pack _ (magnitude_lt a)

@[simp] theorem signBit_round (negative : Bool) (n d : Nat) : signBit (round negative n d) = negative := signBit_pack _ _

/-- Everything `round` can do to bits 30:0. -/
theorem magnitude_round (negative : Bool) (n d : Nat) :
    magnitude (round negative n d) =
      min ((Nat.log2 (n / d) - 23) * 2 ^ 23 + nearestEven n (d * 2 ^ (Nat.log2 (n / d) - 23))) infinityMagnitude := by
  unfold round
  exact magnitude_pack _ (lt_of_le_of_lt (Nat.min_le_right _ _) (by decide))

/-- A rounded value is never a NaN. -/
theorem isNaN_round (negative : Bool) (n d : Nat) : isNaN (round negative n d) = false := by
  unfold isNaN
  rw [magnitude_round]
  simp

/-- Everything `nearestEven` can answer: a nearest integer, the even one of two. -/
theorem nearestEven_cases (n d : Nat) :
    (nearestEven n d = n / d ∧ (2 * (n % d) < d ∨ (2 * (n % d) = d ∧ n / d % 2 = 0))) ∨
    (nearestEven n d = n / d + 1 ∧ (d < 2 * (n % d) ∨ (2 * (n % d) = d ∧ n / d % 2 = 1))) := by
  unfold nearestEven
  simp only
  split
  · left; exact ⟨rfl, .inl ‹_›⟩
  · split
    · right; exact ⟨rfl, .inl ‹_›⟩
    · rcases Nat.mod_two_eq_zero_or_one (n / d) with h | h <;> simp [h] <;> omega

end Sys2Proof.Machine.Binary32
end

