-- ==== Sys2Proof/Laws/Rom.lean ====
section
/-! SUPPORT. What the check of R30 says, and what follows for the elements of a bank. No operation writes the ROMs, so that
every one keeps the check is `exec_keeps_rom` in Laws/Ops.lean. -/

namespace Sys2Proof.Machine

/-- Neighbours that are read by index are related. -/
theorem neighbours_get {α : Type} {r : α → α → Bool} :
    ∀ {l : List α}, neighbours r l = true → ∀ {i : Nat} {a b : α}, l[i]? = some a → l[i + 1]? = some b → r a b = true
  | [], _, _, _, _, ha, _ => by simp at ha
  | [_], _, i, _, _, _, hb => by simp at hb
  | p :: q :: rest, h, i, a, b, ha, hb => by
    simp only [neighbours, Bool.and_eq_true] at h
    cases i with
    | zero => simp at ha hb; subst ha hb; exact h.1
    | succ j =>
      rw [List.getElem?_cons_succ] at ha hb
      exact neighbours_get h.2 ha hb

/-- A relation of neighbours that is transitive holds between any two places in order. -/
theorem neighbours_lt {α : Type} {r : α → α → Bool} (trans : ∀ a b c, r a b = true → r b c = true → r a c = true)
    {l : List α} (h : neighbours r l = true) {i : Nat} :
    ∀ {j : Nat} {a b : α}, i < j → l[i]? = some a → l[j]? = some b → r a b = true
  | 0, _, _, hij, _, _ => by omega
  | j + 1, a, b, hij, ha, hb => by
    by_cases hij' : i = j
    · subst hij'; exact neighbours_get h ha hb
    · have hj : j < l.length := by
        have := (List.getElem?_eq_some_iff.mp hb).1; omega
      have hc : l[j]? = some l[j] := List.getElem?_eq_getElem hj
      exact trans _ _ _ (neighbours_lt trans h (by omega) ha hc) (neighbours_get h hc hb)

/-- The check of R30, clause by clause. -/
theorem Bank.wf_iff (b : Bank) (n : Nat) :
    b.wf n = true ↔ (b.cnt.length = n ∧ b.vel.length = n) ∧ b.countsIncrease = true ∧ b.velocitiesRise = true ∧
      b.velocitiesFinite = true := by
  simp [Bank.wf, Bank.hasNodes, and_assoc]

/-- The check of R30 for both banks. -/
theorem Memory.wf_iff (m : Memory) :
    m.wf = true ↔ m.bankN.wf 9 = true ∧ m.bankW.wf 13 = true ∧ m.sourceCells = true := by
  simp [Memory.wf, and_assoc]

/-- In a bank that meets R30(b), a later count is the greater one. -/
theorem Bank.cnt_lt {b : Bank} (h : b.countsIncrease = true) {i j : Nat} {p q : Count} (hij : i < j)
    (hp : b.cnt[i]? = some p) (hq : b.cnt[j]? = some q) : p.toNat < q.toNat := by
  have := neighbours_lt (r := fun p q : Count => decide (p.toNat < q.toNat))
    (by intro a b c; simp only [decide_eq_true_eq]; omega) h hij hp hq
  simpa using this

/-- The order of binary32 values is transitive. -/
theorem Binary32.le_transitive {a b c : F32} (hab : Binary32.le a b = true) (hbc : Binary32.le b c = true) :
    Binary32.le a c = true := by
  simp only [Binary32.le, Bool.and_eq_true, decide_eq_true_eq] at *
  exact ⟨⟨hab.1.1, hbc.1.2⟩, by omega⟩

/-- In a bank that meets R30(c), a later velocity is no smaller. -/
theorem Bank.vel_le {b : Bank} (h : b.velocitiesRise = true) {i j : Nat} {p q : F32} (hij : i < j)
    (hp : b.vel[i]? = some p) (hq : b.vel[j]? = some q) : Binary32.le p q = true := by
  have h' : neighbours Binary32.le b.vel = true := h
  exact neighbours_lt (r := Binary32.le) (fun _ _ _ hab hbc => Binary32.le_transitive hab hbc) h' hij hp hq

/-- A velocity of a bank that meets R30(d) is finite. -/
theorem Bank.vel_finite {b : Bank} (h : b.velocitiesFinite = true) {i : Nat} {p : F32} (hp : b.vel[i]? = some p) :
    Binary32.isFinite p = true :=
  List.all_eq_true.mp h p (List.mem_of_getElem? hp)

end Sys2Proof.Machine
end

