-- ==== Sys2Proof/Laws/State.lean ====
section
/-! SUPPORT. One lemma per field of State per update, so that no later proof unfolds a record update. -/

namespace Sys2Proof.Machine

@[simp] theorem setInputs_config (v : Variant) (c : Count) (s : State) : (setInputs v c s).config = s.config := rfl
@[simp] theorem setInputs_variant (v : Variant) (c : Count) (s : State) : (setInputs v c s).variant = v := rfl
@[simp] theorem setInputs_count (v : Variant) (c : Count) (s : State) : (setInputs v c s).count = c := rfl
@[simp] theorem setInputs_velocity (v : Variant) (c : Count) (s : State) : (setInputs v c s).velocity = s.velocity := rfl

@[simp] theorem driveVelocity_config (f : F32) (s : State) : (driveVelocity f s).config = s.config := rfl
@[simp] theorem driveVelocity_variant (f : F32) (s : State) : (driveVelocity f s).variant = s.variant := rfl
@[simp] theorem driveVelocity_count (f : F32) (s : State) : (driveVelocity f s).count = s.count := rfl
@[simp] theorem driveVelocity_velocity (f : F32) (s : State) : (driveVelocity f s).velocity = f := rfl
@[simp] theorem driveVelocity_numerics (f : F32) (s : State) : (driveVelocity f s).numerics = s.numerics := rfl
@[simp] theorem driveVelocity_twice (f g : F32) (s : State) :
    driveVelocity f (driveVelocity g s) = driveVelocity f s := rfl
@[simp] theorem driveVelocity_self (s : State) : driveVelocity s.velocity s = s := rfl

/-- The output depends on the inputs and the configuration and on nothing else (10_state.md R10). -/
@[simp] theorem output_driveVelocity (f : F32) (s : State) : output (driveVelocity f s) = output s := rfl

/-- Everything that following the inputs can do: it drives the output, if the spec gives one. -/
theorem follow_cases (s : State) :
    (∃ y, output s = some y ∧ follow s = driveVelocity y s) ∨ (output s = none ∧ follow s = s) := by
  unfold follow
  split
  · exact .inl ⟨_, ‹_›, rfl⟩
  · exact .inr ⟨‹_›, rfl⟩

@[simp] theorem follow_config (s : State) : (follow s).config = s.config := by unfold follow; split <;> rfl
@[simp] theorem follow_variant (s : State) : (follow s).variant = s.variant := by unfold follow; split <;> rfl
@[simp] theorem follow_count (s : State) : (follow s).count = s.count := by unfold follow; split <;> rfl
theorem follow_velocity (s : State) : (follow s).velocity = (output s).getD s.velocity := by
  unfold follow; split <;> simp [*]

@[simp] theorem drive_config (v : Variant) (c : Count) (s : State) : (drive v c s).config = s.config := by simp [drive]
@[simp] theorem drive_variant (v : Variant) (c : Count) (s : State) : (drive v c s).variant = v := by simp [drive]
@[simp] theorem drive_count (v : Variant) (c : Count) (s : State) : (drive v c s).count = c := by simp [drive]
theorem drive_velocity (v : Variant) (c : Count) (s : State) :
    (drive v c s).velocity = (output (setInputs v c s)).getD s.velocity := follow_velocity _

@[simp] theorem present_config (i : Instr) (s : State) : (present i s).config = s.config := drive_config _ _ _
@[simp] theorem present_variant (i : Instr) (s : State) : (present i s).variant = i.variant := drive_variant _ _ _
@[simp] theorem present_count (i : Instr) (s : State) : (present i s).count = i.count := drive_count _ _ _

@[simp] theorem withFetchWord_config (s : State) (nbits w : Nat) : (s.withFetchWord nbits w).config = s.config :=
  drive_config _ _ _

@[simp] theorem request_driveVelocity (f : F32) (s : State) : request (driveVelocity f s) = request s := rfl

end Sys2Proof.Machine
end

