-- ==== Sys2Proof/Laws/Ops.lean ====
section
/-! SUPPORT. For each shared operation one lemma that says everything it can do. -/

namespace Sys2Proof.Machine

@[simp] theorem select_c (m : Memory) (v : Variant) : (select m v).c = (m.bank v).cnt := by cases v <;> rfl
@[simp] theorem select_v (m : Memory) (v : Variant) : (select m v).v = (m.bank v).vel := by cases v <;> rfl
@[simp] theorem select_n (m : Memory) (v : Variant) : (select m v).n = nodes v := by cases v <;> rfl

/-- A variant has at least two nodes (R17(d)). -/
theorem two_le_nodes (v : Variant) : 2 ≤ nodes v := by cases v <;> decide

/-- Contents that meet R30 meet it in the selected bank. -/
theorem Memory.wf_bank {m : Memory} (h : m.wf = true) (v : Variant) : (m.bank v).wf (nodes v) = true := by
  rw [Memory.wf_iff] at h
  cases v
  · exact h.1
  · exact h.2.1

/-- A node is read exactly when both of its halves are. -/
theorem readNode_eq_some (t : Selection) (i : Nat) (k : Node) :
    readNode t i = some k ↔ t.c[i]? = some k.c ∧ t.v[i]? = some k.v := by
  unfold readNode
  cases k
  split
  · simp_all
  · constructor
    · simp
    · rintro ⟨hc, hv⟩
      rename_i h
      exact absurd hv (h _ _ hc)

/-- READ2 answers the two nodes of a segment. -/
theorem read2_eq_some (t : Selection) (i : Nat) (lower upper : Node) :
    read2 t i = some (lower, upper) ↔ readNode t i = some lower ∧ readNode t (i + 1) = some upper := by
  unfold read2
  split
  · simp_all
  · constructor
    · simp
    · rintro ⟨hl, hu⟩
      rename_i h
      exact absurd hu (h _ _ hl)

/-- END answers the two end nodes. -/
theorem readEnds_eq_some (t : Selection) (first last : Node) :
    readEnds t = some (first, last) ↔ readNode t 0 = some first ∧ readNode t (t.n - 1) = some last := by
  unfold readEnds
  split
  · simp_all
  · constructor
    · simp
    · rintro ⟨hl, hu⟩
      rename_i h
      exact absurd hu (h _ _ hl)

/-- In contents that meet R30, node `i` of a variant's table is there for every `i` below `N(v)` (R32). -/
theorem readNode_of_wf {m : Memory} (h : m.wf = true) (v : Variant) {i : Nat} (hi : i < nodes v) :
    ∃ k, readNode (select m v) i = some k := by
  have hb := (Bank.wf_iff _ _).mp (Memory.wf_bank h v)
  have hc : i < (select m v).c.length := by rw [select_c, hb.1.1]; exact hi
  have hv : i < (select m v).v.length := by rw [select_v, hb.1.2]; exact hi
  exact ⟨⟨(select m v).c[i], (select m v).v[i]⟩,
    (readNode_eq_some _ _ _).mpr ⟨List.getElem?_eq_getElem hc, List.getElem?_eq_getElem hv⟩⟩

/-- The three classes (R70). -/
theorem classify_eq_low (count first last : Count) :
    classify count first last = .low ↔ count.toNat ≤ first.toNat := by
  unfold classify; split <;> [simp_all; (split <;> simp_all)]

theorem classify_eq_high (count first last : Count) :
    classify count first last = .high ↔ first.toNat < count.toNat ∧ last.toNat ≤ count.toNat := by
  unfold classify; split <;> [skip; split] <;> simp_all

theorem classify_eq_seg (count first last : Count) :
    classify count first last = .seg ↔ first.toNat < count.toNat ∧ count.toNat < last.toNat := by
  unfold classify; split <;> [skip; split] <;> simp_all

/-- What it means that a segment holds a count (R71). -/
theorem holds_iff (cs : List Count) (count : Count) (i : Nat) :
    holds cs count i = true ↔ ∃ lower upper, cs[i]? = some lower ∧ cs[i + 1]? = some upper ∧
      lower.toNat ≤ count.toNat ∧ count.toNat < upper.toNat := by
  unfold holds
  split
  · simp_all
  · constructor
    · simp
    · rintro ⟨l, u, hl, hu, -⟩
      rename_i h
      exact absurd hu (h _ _ hl)

/-- What BRACKET answers is a segment that holds the count. -/
theorem bracket_holds {t : Selection} {count : Count} {i : Nat} (h : bracket t count = some i) :
    i < t.n - 1 ∧ holds t.c count i = true :=
  ⟨List.mem_range.mp (List.mem_of_find?_eq_some h), List.find?_some h⟩

/-- BRACKET answers something when a segment holds the count. -/
theorem bracket_isSome {t : Selection} {count : Count} {i : Nat} (hi : i < t.n - 1) (h : holds t.c count i = true) :
    ∃ j, bracket t count = some j := by
  have : (bracket t count).isSome := List.find?_isSome.mpr ⟨i, List.mem_range.mpr hi, h⟩
  exact Option.isSome_iff_exists.mp this

/-- At most one segment of increasing counts holds a count. -/
theorem holds_unique {b : Bank} (hb : b.countsIncrease = true) {count : Count} {i j : Nat}
    (hi : holds b.cnt count i = true) (hj : holds b.cnt count j = true) : i = j := by
  obtain ⟨li, ui, hli, hui, h1, h2⟩ := (holds_iff _ _ _).mp hi
  obtain ⟨lj, uj, hlj, huj, h3, h4⟩ := (holds_iff _ _ _).mp hj
  by_contra hne
  rcases Nat.lt_or_gt_of_ne hne with hij | hij
  · rcases Nat.eq_or_lt_of_le hij with heq | hlt
    · have : ui = lj := by subst heq; rw [hlj] at hui; exact (Option.some.inj hui).symm
      subst this; omega
    · have := Bank.cnt_lt hb hlt hui hlj; omega
  · rcases Nat.eq_or_lt_of_le hij with heq | hlt
    · have : uj = li := by subst heq; rw [hli] at huj; exact (Option.some.inj huj).symm
      subst this; omega
    · have := Bank.cnt_lt hb hlt huj hli; omega

/-- Everything the class SEG can do: a held segment, its two nodes, and LERP of them. -/
theorem interpolateInside_eq_some {num : Numerics} {t : Selection} {count : Count} {y : F32}
    (h : interpolateInside num t count = some y) :
    ∃ i lower upper, bracket t count = some i ∧ read2 t i = some (lower, upper) ∧
      y = lerp num count lower.c lower.v upper.c upper.v := by
  unfold interpolateInside at h
  split at h
  · simp at h
  · rename_i i hi
    split at h
    · simp at h
    · rename_i lower upper hr
      exact ⟨i, lower, upper, hi, hr, (Option.some.inj h).symm⟩

/-- Everything an evaluation on a selected bank can do (R80, R81): one case per class. -/
theorem interpolate_eq_some {num : Numerics} {t : Selection} {count : Count} {y : F32}
    (h : interpolate num t count = some y) :
    ∃ first last, readEnds t = some (first, last) ∧
      ((count.toNat ≤ first.c.toNat ∧ y = first.v) ∨
       (first.c.toNat < count.toNat ∧ last.c.toNat ≤ count.toNat ∧ y = last.v) ∨
       (first.c.toNat < count.toNat ∧ count.toNat < last.c.toNat ∧ interpolateInside num t count = some y)) := by
  unfold interpolate at h
  split at h
  · simp at h
  · rename_i first last he
    refine ⟨first, last, he, ?_⟩
    split at h
    · rename_i hc; exact .inl ⟨(classify_eq_low _ _ _).mp hc, (Option.some.inj h).symm⟩
    · rename_i hc
      have := (classify_eq_high _ _ _).mp hc
      exact .inr (.inl ⟨this.1, this.2, (Option.some.inj h).symm⟩)
    · rename_i hc
      have := (classify_eq_seg _ _ _).mp hc
      exact .inr (.inr ⟨this.1, this.2, h⟩)

/-- Everything an evaluation can do: it answers a next state exactly when the contents meet R30 and the function has a value,
and then it has driven `VELOCITY` and done nothing else. -/
theorem evaluate_eq_next (num : Numerics) (v : Variant) (count : Count) (s t : State) :
    evaluate num v count s = .next t ↔
      s.rom.wf = true ∧ ∃ y, interpolate num (select s.rom v) count = some y ∧ t = driveVelocity y s := by
  unfold evaluate
  split
  · rename_i hw
    split
    · rename_i y hy
      simp only [Host.Outcome.next.injEq]
      constructor
      · rintro rfl; exact ⟨hw, y, hy, rfl⟩
      · rintro ⟨-, y', hy', rfl⟩; rw [hy] at hy'; cases hy'; rfl
    · rename_i hn
      simp [hn]
  · rename_i hw; simp [hw]

/-- `exec` is the evaluation of the operation's variant and operand, with the numerics of the configuration. -/
theorem exec_eq (i : Instr) (s : State) : exec i s = evaluate s.numerics i.variant i.count s := by
  cases i <;> rfl

/-- Everything `exec` can do when it answers a next state. -/
theorem exec_eq_next (i : Instr) (s t : State) :
    exec i s = .next t ↔ s.rom.wf = true ∧
      ∃ y, interpolate s.numerics (select s.rom i.variant) i.count = some y ∧ t = driveVelocity y s := by
  rw [exec_eq, evaluate_eq_next]

/-- No operation writes the configuration, so the check of R30 is kept. -/
theorem exec_keeps_config {i : Instr} {s t : State} (h : exec i s = .next t) : t.config = s.config := by
  obtain ⟨-, y, -, rfl⟩ := (exec_eq_next i s t).mp h
  rfl

theorem exec_keeps_wf {i : Instr} {s t : State} (h : exec i s = .next t) : t.rom.wf = s.rom.wf := by
  unfold State.rom; rw [exec_keeps_config h]

/-- Counts that reach above `count` at place `j` and start no higher hold it in a segment below `j` (R71). -/
theorem holds_below {cs : List Count} {count first : Count} (h0 : cs[0]? = some first)
    (hfirst : first.toNat ≤ count.toNat) :
    ∀ {j : Nat} {c : Count}, cs[j]? = some c → count.toNat < c.toNat → ∃ i < j, holds cs count i = true
  | 0, c, hc, hlt => by
    rw [h0] at hc; cases hc; omega
  | j + 1, c, hc, hlt => by
    have hj : j < cs.length := by
      have := (List.getElem?_eq_some_iff.mp hc).1; omega
    have hd : cs[j]? = some cs[j] := List.getElem?_eq_getElem hj
    rcases Nat.lt_or_ge count.toNat cs[j].toNat with hlow | hge
    · obtain ⟨i, hi, hh⟩ := holds_below h0 hfirst hd hlow
      exact ⟨i, by omega, hh⟩
    · exact ⟨j, by omega, (holds_iff _ _ _).mpr ⟨_, _, hd, hc, hge, hlt⟩⟩

/-- Over contents that meet R30 the function has a value at every count (20_memory.md R32). -/
theorem interpolate_of_wf {m : Memory} (h : m.wf = true) (num : Numerics) (v : Variant) (count : Count) :
    ∃ y, interpolate num (select m v) count = some y := by
  have hn := two_le_nodes v
  obtain ⟨first, hf⟩ := readNode_of_wf h v (i := 0) (by omega)
  obtain ⟨last, hl⟩ := readNode_of_wf h v (i := nodes v - 1) (by omega)
  have he : readEnds (select m v) = some (first, last) :=
    (readEnds_eq_some _ _ _).mpr ⟨hf, by rw [select_n]; exact hl⟩
  rcases hc : classify count first.c last.c with _ | _ | _
  · exact ⟨_, by simp only [interpolate, he, hc]; rfl⟩
  · exact ⟨_, by simp only [interpolate, he, hc]; rfl⟩
  · have hseg := (classify_eq_seg _ _ _).mp hc
    have hfc := ((readNode_eq_some _ _ _).mp hf).1
    have hlc := ((readNode_eq_some _ _ _).mp hl).1
    obtain ⟨i, hi, hh⟩ := holds_below hfc (by omega) hlc hseg.2
    obtain ⟨j, hj⟩ := bracket_isSome (t := select m v) (by rw [select_n]; exact hi) hh
    have hlt := (bracket_holds hj).1
    rw [select_n] at hlt
    obtain ⟨lower, hlow⟩ := readNode_of_wf h v (i := j) (by omega)
    obtain ⟨upper, hup⟩ := readNode_of_wf h v (i := j + 1) (by omega)
    have hr := (read2_eq_some _ _ _ _).mpr ⟨hlow, hup⟩
    exact ⟨_, by simp only [interpolate, he, hc, interpolateInside, hj, hr]; rfl⟩

/-- Over contents that meet R30 there is an output. -/
theorem output_of_wf {s : State} (h : s.rom.wf = true) : ∃ y, output s = some y := by
  obtain ⟨y, hy⟩ := interpolate_of_wf h s.numerics s.variant s.count
  exact ⟨y, by unfold output; rw [if_pos h, hy]⟩

/-- The contents of the reset state meet R30. -/
theorem reset_wf : State.reset.rom.wf = true := by decide

end Sys2Proof.Machine
end

