-- ==== Sys2Proof/Laws/PerInstr.lean ====
section
/-! SUPPORT. Statements made per instruction: the family `Encoding`. -/

namespace Sys2Proof

/-- The number of a word of format Q (30_encoding.md R45, R52). -/
theorem toNat_word (b : BitVec 1) (c : Count) : (b ++ c).toNat = b.toNat * 2 ^ 16 + c.toNat := by
  rw [BitVec.toNat_append, ← Nat.shiftLeft_add_eq_or_of_lt c.isLt, Nat.shiftLeft_eq]

@[simp] theorem countField_append (b : BitVec 1) (c : Count) : countField (b ++ c) = c := by
  apply BitVec.eq_of_toNat_eq
  rw [countField, BitVec.extractLsb'_toNat, toNat_word, Nat.shiftRight_zero]
  have := c.isLt
  omega

@[simp] theorem variantField_append (b : BitVec 1) (c : Count) : variantField (b ++ c) = b := by
  apply BitVec.eq_of_toNat_eq
  rw [variantField, BitVec.extractLsb'_toNat, toNat_word, Nat.shiftRight_eq_div_pow]
  have := c.isLt
  have := b.isLt
  omega

/-- A word of format Q under the mask of the operation map. -/
theorem append_and_mask (b : BitVec 1) (c : Count) : (b ++ c) &&& 0x10000#17 = b ++ 0#16 := by
  have h : (0x10000#17 : RequestWord) = 1#1 ++ 0#16 := rfl
  rw [h, BitVec.and_append]
  have hb : b &&& 1#1 = b := by
    rcases BitVec.eq_zero_or_eq_one b with rfl | rfl <;> rfl
  rw [hb, BitVec.and_zero]

end Sys2Proof

namespace Sys2Proof.Laws.Encoding

/-- An instruction is well formed (30_encoding.md R50), some row of the operation map has its mnemonic and takes its word
(R49), and the word's fields are its variant and its operand (R45). -/
def Statement (i : Instr) : Prop :=
  i.wf = true ∧ (∃ r ∈ opcodeTable, r.mnemonic = i.mnemonic ∧ r.takes (encode i) = true) ∧
    variantField (encode i) = variantBit i.variant ∧ countField (encode i) = i.count

theorem interpN (count : Count) : Statement (.interpN count) := by
  refine ⟨rfl, ⟨_, List.mem_cons_self, rfl, ?_⟩, variantField_append _ _, countField_append _ _⟩
  simp only [OpcodeRow.takes, encode, append_and_mask, Instr.variant, variantBit]
  decide

theorem interpW (count : Count) : Statement (.interpW count) := by
  refine ⟨rfl, ⟨_, List.mem_cons_of_mem _ List.mem_cons_self, rfl, ?_⟩, variantField_append _ _, countField_append _ _⟩
  simp only [OpcodeRow.takes, encode, append_and_mask, Instr.variant, variantBit]
  decide

end Sys2Proof.Laws.Encoding
end

