-- ==== Sys2Proof/Laws/Rounding.lean ====
section
/-! SUPPORT. What rounding does to order and to representable values: `round` is monotone in the exact value, and gives a
representable value back. -/

namespace Sys2Proof.Machine.Binary32

/-- Everything `nearestEven` can answer, as a bound: it is at most `m` exactly when the exact value is below `m + 1/2`, or at it
with `m` even. -/
theorem nearestEven_le_iff {n d m : Nat} (hd : 0 < d) :
    nearestEven n d ≤ m ↔ 2 * n < (2 * m + 1) * d ∨ (2 * n = (2 * m + 1) * d ∧ m % 2 = 0) := by
  have hn := Nat.div_add_mod n d
  have hr := Nat.mod_lt n hd
  generalize hq : n / d = q at *
  generalize hrem : n % d = r at *
  have hexp : (2 * m + 1) * d = 2 * (d * m) + d := by ring
  rw [hexp]
  have key : ∀ {a b : Nat}, a ≤ b → d * a ≤ d * b := fun h => Nat.mul_le_mul_left d h
  rcases nearestEven_cases n d with ⟨he, hc⟩ | ⟨he, hc⟩ <;> rw [he] <;> rw [hq, hrem] at *
  · constructor
    · intro h
      have h1 := key h
      rcases hc with hc | ⟨hc, hev⟩
      · left; omega
      · rcases Nat.eq_or_lt_of_le h with heq | hlt
        · right; subst heq; omega
        · have h2 := key hlt; rw [Nat.mul_succ] at h2; left; omega
    · intro h
      by_contra hlt
      have h2 := key (Nat.succ_le_of_lt (Nat.lt_of_not_le hlt)); rw [Nat.mul_succ] at h2
      omega
  · constructor
    · intro h
      have h2 := key h; rw [Nat.mul_add, Nat.mul_one] at h2
      left; omega
    · intro h
      by_contra hlt
      have hm : m ≤ q := by omega
      have h1 := key hm
      rcases Nat.eq_or_lt_of_le hm with heq | hlt'
      · subst heq; omega
      · have h2 := key (Nat.succ_le_of_lt hlt'); rw [Nat.mul_succ] at h2; omega

/-- `nearestEven` is monotone in the exact value. -/
theorem nearestEven_mono {n d n' d' : Nat} (hd : 0 < d) (hd' : 0 < d') (h : n * d' ≤ n' * d) :
    nearestEven n d ≤ nearestEven n' d' := by
  rw [nearestEven_le_iff hd]
  have h' := (nearestEven_le_iff hd').mp (le_refl (nearestEven n' d'))
  generalize nearestEven n' d' = m at *
  by_contra hcon
  rw [not_or, not_lt] at hcon
  obtain ⟨hge, hne⟩ := hcon
  have h1 : (2 * m + 1) * d * d' ≤ 2 * n * d' := Nat.mul_le_mul_right d' hge
  have h2 : 2 * n * d' ≤ 2 * n' * d := by nlinarith
  have h3 : (2 * m + 1) * d' * d ≤ 2 * n' * d := by
    calc (2 * m + 1) * d' * d = (2 * m + 1) * d * d' := by ring
      _ ≤ _ := le_trans h1 h2
  have h4 : (2 * m + 1) * d' ≤ 2 * n' := Nat.le_of_mul_le_mul_right h3 hd
  rcases h' with hlt | ⟨heq, hev⟩
  · omega
  · apply hne
    refine ⟨?_, hev⟩
    have h5 : 2 * n * d' ≤ (2 * m + 1) * d * d' := by
      calc 2 * n * d' ≤ 2 * n' * d := h2
        _ = (2 * m + 1) * d' * d := by rw [heq]
        _ = (2 * m + 1) * d * d' := by ring
    exact le_antisymm (Nat.le_of_mul_le_mul_right h5 hd') hge

/-- An integer is its own nearest. -/
theorem nearestEven_mul (m : Nat) {d : Nat} (hd : 0 < d) : nearestEven (m * d) d = m := by
  unfold nearestEven
  simp [Nat.mul_div_cancel _ hd, hd]

/-- How many low bits of the exact value `n / d` fall outside the 24 significant ones. -/
def shiftOf (n d : Nat) : Nat := Nat.log2 (n / d) - 23

/-- Bits 30:0 of `round` before the infinity caps them. -/
def roundedMagnitude (n d : Nat) : Nat := shiftOf n d * 2 ^ 23 + nearestEven n (d * 2 ^ shiftOf n d)

theorem magnitude_round_eq (negative : Bool) (n d : Nat) :
    magnitude (round negative n d) = min (roundedMagnitude n d) infinityMagnitude := magnitude_round negative n d

/-- The quotient is below the top of its binade. -/
theorem div_lt_shift (n d : Nat) : n / d < 2 ^ (shiftOf n d + 24) := by
  refine lt_of_lt_of_le Nat.lt_log2_self (Nat.pow_le_pow_right (by decide) ?_)
  unfold shiftOf; omega

/-- A quotient with a shift is at least the bottom of its binade. -/
theorem shift_le_div {n d : Nat} (h : 0 < shiftOf n d) : 2 ^ (shiftOf n d + 23) ≤ n / d := by
  have hq : n / d ≠ 0 := by
    intro h0; unfold shiftOf at h; rw [h0] at h; exact absurd h (by decide)
  have hlog : shiftOf n d + 23 = Nat.log2 (n / d) := by unfold shiftOf at *; omega
  rw [hlog]
  exact Nat.log2_self_le hq

/-- The significand is at most 2^24. -/
theorem nearestEven_shift_le {n d : Nat} (hd : 0 < d) : nearestEven n (d * 2 ^ shiftOf n d) ≤ 2 ^ 24 := by
  have hpos : 0 < d * 2 ^ shiftOf n d := Nat.mul_pos hd (Nat.two_pow_pos _)
  have h := (Nat.div_lt_iff_lt_mul hd).mp (div_lt_shift n d)
  have hle : n * 1 ≤ 2 ^ 24 * (d * 2 ^ shiftOf n d) := by
    calc n * 1 ≤ 2 ^ (shiftOf n d + 24) * d := by omega
      _ = 2 ^ 24 * (d * 2 ^ shiftOf n d) := by rw [pow_add]; ring
  calc nearestEven n (d * 2 ^ shiftOf n d)
      ≤ nearestEven (2 ^ 24 * (d * 2 ^ shiftOf n d)) (d * 2 ^ shiftOf n d) :=
        nearestEven_mono hpos hpos (Nat.mul_le_mul_right _ (by omega))
    _ = 2 ^ 24 := nearestEven_mul _ hpos

/-- With a shift the significand is at least 2^23. -/
theorem le_nearestEven_shift {n d : Nat} (hd : 0 < d) (h : 0 < shiftOf n d) :
    2 ^ 23 ≤ nearestEven n (d * 2 ^ shiftOf n d) := by
  have hpos : 0 < d * 2 ^ shiftOf n d := Nat.mul_pos hd (Nat.two_pow_pos _)
  have hge := (Nat.le_div_iff_mul_le hd).mp (shift_le_div h)
  have hle : 2 ^ 23 * (d * 2 ^ shiftOf n d) ≤ n := by
    calc 2 ^ 23 * (d * 2 ^ shiftOf n d) = 2 ^ (shiftOf n d + 23) * d := by rw [pow_add]; ring
      _ ≤ n := hge
  calc 2 ^ 23 = nearestEven (2 ^ 23 * (d * 2 ^ shiftOf n d)) (d * 2 ^ shiftOf n d) := (nearestEven_mul _ hpos).symm
    _ ≤ _ := nearestEven_mono hpos hpos (Nat.mul_le_mul_right _ hle)

/-- Rounding is monotone in the exact value. -/
theorem roundedMagnitude_mono {n d n' d' : Nat} (hd : 0 < d) (hd' : 0 < d') (h : n * d' ≤ n' * d) :
    roundedMagnitude n d ≤ roundedMagnitude n' d' := by
  have hq : n / d ≤ n' / d' := by
    rw [Nat.le_div_iff_mul_le hd']
    refine Nat.le_of_mul_le_mul_right (c := d) ?_ hd
    calc n / d * d' * d = n / d * d * d' := by ring
      _ ≤ n * d' := Nat.mul_le_mul_right _ (Nat.div_mul_le_self n d)
      _ ≤ n' * d := h
  have hlog : Nat.log2 (n / d) ≤ Nat.log2 (n' / d') := by
    rw [Nat.log2_eq_log_two, Nat.log2_eq_log_two]; exact Nat.log_mono_right hq
  have hk : shiftOf n d ≤ shiftOf n' d' := by unfold shiftOf; omega
  unfold roundedMagnitude
  rcases Nat.eq_or_lt_of_le hk with heq | hlt
  · rw [← heq]
    refine Nat.add_le_add_left (nearestEven_mono (Nat.mul_pos hd (Nat.two_pow_pos _)) (Nat.mul_pos hd' (Nat.two_pow_pos _)) ?_) _
    calc n * (d' * 2 ^ shiftOf n d) = n * d' * 2 ^ shiftOf n d := by ring
      _ ≤ n' * d * 2 ^ shiftOf n d := Nat.mul_le_mul_right _ h
      _ = n' * (d * 2 ^ shiftOf n d) := by ring
  · have h1 := nearestEven_shift_le (n := n) hd
    have h2 := le_nearestEven_shift (n := n') hd' (by omega)
    omega

/-- `round` is monotone in the exact value. -/
theorem magnitude_round_mono (negative negative' : Bool) {n d n' d' : Nat} (hd : 0 < d) (hd' : 0 < d')
    (h : n * d' ≤ n' * d) : magnitude (round negative n d) ≤ magnitude (round negative' n' d') := by
  rw [magnitude_round_eq, magnitude_round_eq]
  exact min_le_min_right _ (roundedMagnitude_mono hd hd' h)

/-- A representable value, written as any fraction, is rounded to itself. -/
theorem roundedMagnitude_absUnits (a : F32) {d : Nat} (hd : 0 < d) :
    roundedMagnitude (absUnits a * d) d = magnitude a := by
  have hf := fraction_lt a
  rw [magnitude_eq]
  unfold roundedMagnitude shiftOf
  rw [Nat.mul_div_cancel _ hd]
  unfold absUnits
  split
  · rename_i he
    have hlog : Nat.log2 (fraction a) - 23 = 0 := by
      rcases Nat.eq_zero_or_pos (fraction a) with h0 | hpos
      · rw [h0]; decide
      · have := (Nat.log2_lt (Nat.pos_iff_ne_zero.mp hpos)).mpr hf; omega
    rw [hlog, he, pow_zero, Nat.mul_one, nearestEven_mul _ hd]
  · rename_i he
    have hne : (2 ^ 23 + fraction a) * 2 ^ (exponent a - 1) ≠ 0 := by positivity
    have hlog : Nat.log2 ((2 ^ 23 + fraction a) * 2 ^ (exponent a - 1)) = 23 + (exponent a - 1) := by
      rw [Nat.log2_eq_iff hne, pow_add, pow_succ, pow_add]
      constructor
      · exact Nat.mul_le_mul_right _ (by omega)
      · calc (2 ^ 23 + fraction a) * 2 ^ (exponent a - 1) < (2 ^ 23 * 2) * 2 ^ (exponent a - 1) :=
              Nat.mul_lt_mul_of_pos_right (by omega) (Nat.two_pow_pos _)
          _ = _ := by ring
    rw [hlog, Nat.add_sub_cancel_left]
    have hmul : (2 ^ 23 + fraction a) * 2 ^ (exponent a - 1) * d = (2 ^ 23 + fraction a) * (d * 2 ^ (exponent a - 1)) := by ring
    rw [hmul, nearestEven_mul _ (Nat.mul_pos hd (Nat.two_pow_pos _))]
    have : exponent a = exponent a - 1 + 1 := by omega
    omega

/-- A finite value is rounded to itself. -/
theorem round_absUnits {a : F32} (h : isFinite a = true) {d : Nat} (hd : 0 < d) :
    round (signBit a) (absUnits a * d) d = a := by
  refine eq_of_signBit_magnitude (signBit_round _ _ _) ?_
  rw [magnitude_round_eq, roundedMagnitude_absUnits a hd]
  have : magnitude a < infinityMagnitude := by simpa [isFinite] using h
  omega

/- The operations on finite operands: one rounding of the exact result. -/

theorem isNaN_of_isFinite {a : F32} (h : isFinite a = true) : isNaN a = false := by
  simp [isFinite, isNaN] at *; omega

theorem isInfinite_of_isFinite {a : F32} (h : isFinite a = true) : isInfinite a = false := by
  simp [isFinite, isInfinite] at *; omega

theorem addFor_of_isFinite (op : NumOp) {a b : F32} (ha : isFinite a = true) (hb : isFinite b = true) :
    addFor op a b = if units a + units b = 0 then pack (signBit a && signBit b) 0
      else round (decide (units a + units b < 0)) (units a + units b).natAbs 1 := by
  simp [addFor, isNaN_of_isFinite, isInfinite_of_isFinite, ha, hb]

theorem mul_of_isFinite {a b : F32} (ha : isFinite a = true) (hb : isFinite b = true) :
    mul a b = round (signOfProduct a b) (absUnits a * absUnits b) (2 ^ 149) := by
  simp [mul, isNaN_of_isFinite, isInfinite_of_isFinite, ha, hb]

theorem div_of_isFinite {a b : F32} (ha : isFinite a = true) (hb : isFinite b = true) (hz : isZero b = false) :
    div a b = round (signOfProduct a b) (absUnits a * 2 ^ 149) (absUnits b) := by
  simp [div, isNaN_of_isFinite, isInfinite_of_isFinite, ha, hb, hz]

end Sys2Proof.Machine.Binary32
end

