-- ==== Sys2Proof/Machine/Flags.lean ====
section
/-! DEFINITION. The flags: none. "Flags, condition codes, predicates: the block has none." (10_state.md R13.) Every operation
of the spec says "Flags written: none" (R60, R61, R70, R71, R80, R81, R82), and the IEEE 754 status flags are not
observable (92_eei_decisions.md D13), so this file defines nothing. -/
end

