-- ==== Sys2Proof/Tests/Slice0.lean ====
section
/-! SUPPORT. The model's own tests. Expected values are those of spec/95_test_vectors.md (section named at each test) or of the
rule named there. After them, for each obligation with hypotheses, a witness that meets them together. -/

namespace Sys2Proof.Tests

open Sys2Proof.Machine

/-- The output after an answered evaluation. -/
def answer (o : Host.Outcome State Fault Refusal) : Option F32 :=
  match o with
  | .next t => some t.velocity
  | _ => none

/-- Whether an evaluation was refused for its configuration. -/
def refusedForRom (o : Host.Outcome State Fault Refusal) : Bool :=
  match o with
  | .refused .romConfiguration => true
  | _ => false

/-- The reset state with other ROM contents. -/
def withRom (m : Memory) : State := { State.reset with config := { rom := m, num := .standard } }

/- Decoding: words written out from 30_encoding.md R45. -/

theorem test_decode_interpN_909 : decode 0b00000001110001101#17 = .interpN 909#16 := by decide
theorem test_decode_interpN_max : decode 0b01111111111111111#17 = .interpN 65535#16 := by decide
theorem test_decode_interpW_0 : decode 0b10000000000000000#17 = .interpW 0#16 := by decide
theorem test_decode_interpW_1400 : decode 0b10000010101111000#17 = .interpW 1400#16 := by decide
theorem test_encode_interpN_3629 : encode (.interpN 3629#16) = 0x00E2D#17 := by decide
theorem test_encode_interpW_3652 : encode (.interpW 3652#16) = 0x10E44#17 := by decide
theorem test_table_word_interpW : decodeTableWord 24 0x1FFFF = some (.interpW 65535#16) := by decide
theorem test_table_word_too_wide : decodeTableWord 24 0x20000 = none := by decide
theorem test_number_too_wide_rejected :
    (match decodeNumber 0x20000 with | .error e => some e | .ok _ => none) = some .notARequestWord := by decide

/- WellFormed: every check refuses an ill-formed term. -/

theorem test_wf_instr : (Instr.interpN 65535#16).wf = true ∧ (Instr.interpW 0#16).wf = true := by decide
theorem test_illformed_line_interpN : (AsmLine.interpN 65536).wf = false := by decide
theorem test_illformed_line_interpW : (AsmLine.interpW 65536).wf = false := by decide
theorem test_illformed_line_interp : (AsmLine.interp .wideRange 65536).wf = false := by decide

/-- R30(a) broken: bank W has twelve counts. -/
def shortMemory : Memory := { defaultMemory with bankW := { defaultBankW with cnt := defaultBankW.cnt.dropLast } }
/-- R30(b) broken: two counts of bank W are equal. -/
def equalCounts : Memory := { defaultMemory with bankW := { defaultBankW with cnt := defaultBankW.cnt.set 2 1203#16 } }
/-- R30(c) broken: velocity 2 of bank W is below velocity 1. -/
def fallingMemory : Memory := { defaultMemory with bankW := { defaultBankW with vel := defaultBankW.vel.set 2 0x3F800000#32 } }
/-- R30(d) broken: the last velocity of bank W is an infinity. -/
def infiniteMemory : Memory := { defaultMemory with bankW := { defaultBankW with vel := defaultBankW.vel.set 12 0x7F800000#32 } }
/-- R30(e) broken: node 0 of bank N has count 408. -/
def otherFirstNode : Memory := { defaultMemory with bankN := { defaultBankN with cnt := defaultBankN.cnt.set 0 408#16 } }

theorem test_illformed_rom_sizes : shortMemory.bankW.hasNodes 13 = false ∧ shortMemory.wf = false := by decide
theorem test_illformed_rom_counts : equalCounts.bankW.countsIncrease = false ∧ equalCounts.wf = false := by decide
theorem test_illformed_rom_velocities :
    fallingMemory.bankW.velocitiesRise = false ∧ fallingMemory.wf = false := by decide
theorem test_illformed_rom_infinite :
    infiniteMemory.bankW.velocitiesFinite = false ∧ infiniteMemory.wf = false := by decide
theorem test_illformed_rom_source_cells : otherFirstNode.sourceCells = false ∧ otherFirstNode.wf = false := by decide
theorem test_illformed_rom_refused :
    refusedForRom (exec (.interpN 909#16) (withRom equalCounts)) = true ∧
      refusedForRom (exec (.interpW 909#16) (withRom equalCounts)) = true := by decide

/- One step of each operation. -/

/-- Section 2.3: count 2000, segment 2. -/
theorem test_interpN_2000 : answer (step (State.reset.withFetchWord 24 0x007D0)) = some 0x4038501D#32 := by decide
/-- Section 2.2: count 4096 is not masked to 12 bits. -/
theorem test_interpN_4096 : answer (step (State.reset.withFetchWord 24 0x01000)) = some 0x40E75C29#32 := by decide
/-- Section 2.4: count 2000, segment 3. -/
theorem test_interpW_2000 : answer (step (State.reset.withFetchWord 24 0x107D0)) = some 0x408A8D4E#32 := by decide
/-- Section 2.4: count 3652, the largest error of bank W. -/
theorem test_interpW_3652 : answer (step (State.reset.withFetchWord 24 0x10E44)) = some 0x4167278C#32 := by decide

/-- Section 2.3, count 3629: the wires `t1` to `t5` and the result. -/
theorem test_wires_3629 :
    let w := lerpWires binary32 3629#16 3572#16 0x40DFAE14#32 3686#16 0x40E75C29#32
    (w.t1, w.t2, w.t3, w.t4, w.t5, w.y) =
      (0x42640000#32, 0x3E75C2A0#32, 0x415AE156#32, 0x42E40000#32, 0x3DF5C29F#32, 0x40E3851E#32) := by decide

/- The environment's side. -/

/-- Section 1, E5. -/
theorem test_count_of_frame : countOfFrame ⟨0xAA#8, 0x0E#8, 0x66#8, 0x55#8, 0xFF#8⟩ = 3686#16 := by decide
/-- R52: the line and the result of its example. -/
theorem test_read_line : readLine "INTERP.N 10000".toList = some (.interpN 10000) := by decide
theorem test_read_line_hexadecimal : readLine "INTERP.W  0x578 ; comment".toList = some (.interpW 1400) := by decide
theorem test_show_result : showResult 0x40E75C29#32 = "0x40E75C29".toList := by decide
/-- R53. -/
theorem test_read_pseudo : readLine "INTERP WideRange, 909".toList = some (.interp .wideRange 909) := by decide
theorem test_assemble_pseudo : assemble (.interp .wideRange 909) = some (.interpW 909#16) := by decide

/- ## Witnesses -/

/-- Contents with a flat segment 1 in bank W. -/
def flatMemory : Memory := { defaultMemory with bankW := { defaultBankW with vel := defaultBankW.vel.set 2 0x40000000#32 } }

/-- A numerics record with the four identities of R72 that is not the default one. -/
def toyNumerics : Numerics where
  cvt u := u.setWidth 32
  sub a b := if a = b then 0x00000000#32 else 0x3F800000#32
  mul _ _ := 0x00000000#32
  div _ _ := 0x00000000#32
  add a _ := a

theorem toyNumerics_identities : NodeIdentities toyNumerics where
  sub_self a _ := by simp [toyNumerics]
  mul_zero _ _ _ := rfl
  zero_div _ _ := rfl
  add_zero _ _ _ := rfl

theorem witness_EveryRequestWordHasOneResult : State.reset.rom.wf = true := by decide

theorem witness_OpcodeRowsPartitionTheRequestWords :
    (⟨"INTERP.W", 0x10000#17, 0x10000#17⟩ : OpcodeRow) ∈ opcodeTable ∧ 0x1FFFF#17 &&& 0x10000#17 = 0x10000#17 := by decide

theorem witness_AssemblyLinesExpand : (65535 : Nat) ≤ 65535 ∧ (65535 : Nat) < 65536 := by decide

theorem witness_CountIsBigEndianFromTheFrame :
    (⟨0x00#8, 0x03#8, 0x8D#8, 0x00#8, 0x00#8⟩ : Frame).countHigh = (⟨0x70#8, 0x03#8, 0x8D#8, 0x01#8, 0x02#8⟩ : Frame).countHigh ∧
    (⟨0x00#8, 0x03#8, 0x8D#8, 0x00#8, 0x00#8⟩ : Frame).countLow = (⟨0x70#8, 0x03#8, 0x8D#8, 0x01#8, 0x02#8⟩ : Frame).countLow := by
  decide

theorem witness_StepRunsTheRequestOnThePorts : decode (request State.reset) = .interpN 0#16 := by decide

theorem witness_StepHasOneOutcome_legal : State.reset.rom.wf = true := by decide
theorem witness_StepHasOneOutcome_refused : step (withRom shortMemory) = .refused .romConfiguration := rfl

theorem witness_EvaluationChangesOnlyVelocity :
    (∃ t, exec (.interpN 909#16) State.reset = .next t) ∧ (∃ t, exec (.interpW 909#16) State.reset = .next t) :=
  ⟨⟨_, rfl⟩, ⟨_, rfl⟩⟩

theorem witness_StepSettlesTheOutput : ∃ t, step (present (.interpW 3600#16) State.reset) = .next t := ⟨_, rfl⟩

theorem witness_OutputFollowsTheInputs : State.reset.rom.wf = true ∧ State.reset.Settled := by decide

theorem witness_NumericsAreAParameterOfTheStep :
    State.reset.config = defaultConfiguration ∧ ∃ t, step State.reset = .next t := ⟨rfl, ⟨_, rfl⟩⟩

theorem witness_ReadsComeFromTheSelectedBank :
    ∃ results t, respond [.interpN 909#16] State.reset = some (results, t) := ⟨_, _, rfl⟩

theorem witness_ConfigurationCheckIsTheRule : (withRom shortMemory).rom.wf = false := by decide

theorem witness_RefusalIsAboutTheConfiguration : (withRom otherFirstNode).rom.wf = false := by decide

theorem witness_ResultDependsOnlyOnTheSelectedBank_narrow :
    State.reset.rom.bankN = (withRom flatMemory).rom.bankN ∧ State.reset.numerics = (withRom flatMemory).numerics ∧ (∃ t, exec (.interpN 909#16) State.reset = .next t) ∧
      (∃ t, exec (.interpN 909#16) (withRom flatMemory) = .next t) := ⟨rfl, rfl, ⟨_, rfl⟩, ⟨_, rfl⟩⟩

/-- Another bank N that meets R30: its free velocity of node 2 is 3.0. -/
def otherBankN : Memory := { defaultMemory with bankN := { defaultBankN with vel := defaultBankN.vel.set 2 0x40400000#32 } }

theorem witness_ResultDependsOnlyOnTheSelectedBank_wide :
    State.reset.rom.bankW = (withRom otherBankN).rom.bankW ∧ State.reset.numerics = (withRom otherBankN).numerics ∧ (∃ t, exec (.interpW 909#16) State.reset = .next t) ∧
      (∃ t, exec (.interpW 909#16) (withRom otherBankN) = .next t) := ⟨rfl, rfl, ⟨_, rfl⟩, ⟨_, rfl⟩⟩

theorem witness_Read2ReturnsTheBracketingNodes :
    defaultMemory.wf = true ∧ 0 ≤ nodes .narrowRange - 2 ∧ 7 ≤ nodes .narrowRange - 2 ∧ 11 ≤ nodes .wideRange - 2 := by decide

theorem witness_EndNodesAreTheFirstAndTheLast : defaultMemory.wf = true ∧ flatMemory.wf = true := by decide

theorem witness_GeneratedIndicesAreLegal :
    flatMemory.wf = true ∧ bracket (select flatMemory .wideRange) 410#16 = some 0 ∧
      bracket (select flatMemory .wideRange) 3685#16 = some 11 := by decide

theorem witness_ClassesAreExclusive :
    defaultMemory.wf = true ∧ readCnt defaultMemory .narrowRange 0 = some 409#16 ∧
      readCnt defaultMemory .narrowRange (nodes .narrowRange - 1) = some 3686#16 ∧
      readCnt defaultMemory .wideRange (nodes .wideRange - 1) = some 3686#16 := by decide

theorem witness_BracketIsTheUniqueSegment :
    defaultMemory.wf = true ∧ readCnt defaultMemory .wideRange 0 = some 409#16 ∧
      readCnt defaultMemory .wideRange (nodes .wideRange - 1) = some 3686#16 ∧
      (409#16).toNat < (410#16).toNat ∧ (410#16).toNat < (3686#16).toNat ∧ (3685#16).toNat < (3686#16).toNat := by decide

theorem witness_InteriorNodeOpensItsSegment :
    defaultMemory.wf = true ∧ 1 ≤ 1 ∧ 1 ≤ nodes .narrowRange - 2 ∧ readCnt defaultMemory .narrowRange 1 = some 915#16 ∧
      11 ≤ nodes .wideRange - 2 ∧ readCnt defaultMemory .wideRange 11 = some 3563#16 := by decide

theorem witness_InterpNFollowsItsRule_low :
    State.reset.rom.wf = true ∧ readCnt State.reset.rom .narrowRange 0 = some 409#16 ∧
      readVel State.reset.rom .narrowRange 0 = some 0x00000000#32 ∧ (409#16).toNat ≤ (409#16).toNat := by decide
theorem witness_InterpNFollowsItsRule_high :
    State.reset.rom.wf = true ∧ readCnt State.reset.rom .narrowRange 8 = some 3686#16 ∧
      readVel State.reset.rom .narrowRange 8 = some 0x40E75C29#32 ∧ (3686#16).toNat ≤ (3686#16).toNat := by decide
theorem witness_InterpNFollowsItsRule_inside :
    State.reset.rom.wf = true ∧ readCnt State.reset.rom .narrowRange 0 = some 409#16 ∧ (409#16).toNat < (3685#16).toNat ∧
      7 ≤ 7 ∧ readCnt State.reset.rom .narrowRange 7 = some 3572#16 ∧
      readVel State.reset.rom .narrowRange 7 = some 0x40DFAE14#32 ∧
      readCnt State.reset.rom .narrowRange (7 + 1) = some 3686#16 ∧
      readVel State.reset.rom .narrowRange (7 + 1) = some 0x40E75C29#32 ∧
      (3572#16).toNat ≤ (3685#16).toNat ∧ (3685#16).toNat < (3686#16).toNat := by decide
theorem witness_InterpNFollowsItsRule_default :
    State.reset.config = defaultConfiguration ∧ (409#16).toNat ≤ 409 ∧ 3686 ≤ (3686#16).toNat ∧
      readCnt State.reset.rom .narrowRange 1 = some 915#16 ∧
      readVel State.reset.rom .narrowRange 1 = some 0x3F88F5C3#32 := by decide

theorem witness_InterpWFollowsItsRule_low :
    State.reset.rom.wf = true ∧ readCnt State.reset.rom .wideRange 0 = some 409#16 ∧
      readVel State.reset.rom .wideRange 0 = some 0x00000000#32 ∧ (409#16).toNat ≤ (409#16).toNat := by decide
theorem witness_InterpWFollowsItsRule_high :
    State.reset.rom.wf = true ∧ readCnt State.reset.rom .wideRange 12 = some 3686#16 ∧
      readVel State.reset.rom .wideRange 12 = some 0x41700000#32 ∧ (3686#16).toNat ≤ (3686#16).toNat := by decide
theorem witness_InterpWFollowsItsRule_inside :
    State.reset.rom.wf = true ∧ readCnt State.reset.rom .wideRange 0 = some 409#16 ∧ (409#16).toNat < (3563#16).toNat ∧
      11 ≤ 11 ∧ readCnt State.reset.rom .wideRange 11 = some 3563#16 ∧
      readVel State.reset.rom .wideRange 11 = some 0x41500000#32 ∧
      readCnt State.reset.rom .wideRange (11 + 1) = some 3686#16 ∧
      readVel State.reset.rom .wideRange (11 + 1) = some 0x41700000#32 ∧
      (3563#16).toNat ≤ (3563#16).toNat ∧ (3563#16).toNat < (3686#16).toNat := by decide
theorem witness_InterpWFollowsItsRule_default :
    State.reset.config = defaultConfiguration ∧ (0#16).toNat ≤ 409 ∧ 3686 ≤ (65535#16).toNat ∧
      readCnt State.reset.rom .wideRange 12 = some 3686#16 ∧
      readVel State.reset.rom .wideRange 12 = some 0x41700000#32 := by decide

theorem witness_ClampsCopyTheEndVelocity :
    State.reset.rom.wf = true ∧ readCnt State.reset.rom .wideRange 0 = some 409#16 ∧
      readVel State.reset.rom .wideRange 0 = some 0x00000000#32 ∧ (409#16).toNat ≤ (409#16).toNat ∧
      readCnt State.reset.rom .wideRange (nodes .wideRange - 1) = some 3686#16 ∧
      readVel State.reset.rom .wideRange (nodes .wideRange - 1) = some 0x41700000#32 ∧
      (3686#16).toNat ≤ (3686#16).toNat := by decide

theorem witness_ProgramResultsAreIndependent : State.reset.rom.wf = true := by decide

theorem witness_RoundingIsNearestTiesToEven :
    0 < 2 ∧ Binary32.isFinite (Binary32.round false 3 2) = true ∧ Binary32.isFinite 0x00000001#32 = true ∧
      Binary32.isInfinite (Binary32.round false ((2 ^ 25 - 1) * 2 ^ 252) 1) = true ∧
      Binary32.isFinite (Binary32.round false ((2 ^ 25 - 1) * 2 ^ 252 - 1) 1) = true := by decide

theorem witness_OperationsAreCorrectlyRounded :
    Binary32.isFinite 0x3F800000#32 = true ∧ Binary32.isFinite 0x40400000#32 = true ∧ Binary32.isZero 0x40400000#32 = false ∧
      Binary32.isFinite (Binary32.add 0x3F800000#32 0x40400000#32) = true ∧
      Binary32.isFinite (Binary32.sub 0x3F800000#32 0x40400000#32) = true ∧
      Binary32.isFinite (Binary32.mul 0x3F800000#32 0x40400000#32) = true ∧
      Binary32.isFinite (Binary32.div 0x3F800000#32 0x40400000#32) = true := by decide

theorem witness_CountDifferencesAreExact :
    (0#16).toNat ≤ (65534#16).toNat ∧ (65534#16).toNat < (65535#16).toNat := by decide

theorem witness_LowerNodeIsExactForAnyNumerics :
    NodeIdentities toyNumerics ∧ Binary32.isFinite (toyNumerics.cvt 409#16) = true ∧
      Binary32.isFinite (toyNumerics.sub 0x40000000#32 0xBF800000#32) = true ∧
      Binary32.signBit (toyNumerics.sub 0x40000000#32 0xBF800000#32) = false ∧
      Binary32.lt 0x00000000#32 (toyNumerics.sub (toyNumerics.cvt 915#16) (toyNumerics.cvt 409#16)) = true ∧
      Binary32.isFinite 0xBF800000#32 = true ∧ 0xBF800000#32 ≠ 0x80000000#32 :=
  ⟨toyNumerics_identities, by decide⟩

theorem witness_NodesAreExact :
    State.reset.config.num = .standard ∧ State.reset.rom.wf = true ∧ State.reset.rom.signsClear = true ∧
      readCnt State.reset.rom .narrowRange 1 = some 915#16 ∧ readVel State.reset.rom .narrowRange 1 = some 0x3F88F5C3#32 ∧
      readCnt State.reset.rom .wideRange 12 = some 3686#16 ∧
      readVel State.reset.rom .wideRange 12 = some 0x41700000#32 := by decide

theorem witness_FlatSegmentIsConstant :
    (withRom flatMemory).config.num = .standard ∧ (withRom flatMemory).rom.wf = true ∧ (withRom flatMemory).rom.signsClear = true ∧
      readCnt (withRom flatMemory).rom .wideRange 1 = some 1203#16 ∧
      readCnt (withRom flatMemory).rom .wideRange (1 + 1) = some 1597#16 ∧
      readVel (withRom flatMemory).rom .wideRange 1 = some 0x40000000#32 ∧
      readVel (withRom flatMemory).rom .wideRange (1 + 1) = some 0x40000000#32 ∧
      (1203#16).toNat ≤ (1596#16).toNat ∧ (1596#16).toNat < (1597#16).toNat := by decide

theorem witness_ResultsRiseWithinASegment :
    (State.reset.config.num = .standard ∧ State.reset.rom.wf = true ∧ State.reset.rom.signsClear = true ∧
      readCnt State.reset.rom .narrowRange 0 = some 409#16 ∧ readCnt State.reset.rom .narrowRange (0 + 1) = some 915#16 ∧
      (409#16).toNat ≤ (409#16).toNat ∧ (409#16).toNat ≤ (914#16).toNat ∧ (914#16).toNat < (915#16).toNat) ∧
    (∃ t, exec (interp .narrowRange 409#16) State.reset = .next t) ∧
    (∃ t, exec (interp .narrowRange 914#16) State.reset = .next t) := ⟨by decide, ⟨_, rfl⟩, ⟨_, rfl⟩⟩

theorem witness_DefaultResultsRiseWithTheCount :
    (State.reset.config = defaultConfiguration ∧ (409#16).toNat < (3686#16).toNat ∧ 409 ≤ (409#16).toNat ∧ (3686#16).toNat ≤ 3686) ∧
    (∃ t, exec (interp .wideRange 409#16) State.reset = .next t) ∧
    (∃ t, exec (interp .wideRange 3686#16) State.reset = .next t) := ⟨by decide, ⟨_, rfl⟩, ⟨_, rfl⟩⟩

/-- A numerics record whose results are all +0. -/
def zeroNumerics : Numerics where
  cvt _ := 0x00000000#32
  sub _ _ := 0x00000000#32
  mul _ _ := 0x00000000#32
  div _ _ := 0x00000000#32
  add _ _ := 0x00000000#32

/-- The check across nodes answers both ways. -/
theorem test_check_across_nodes :
    risesAcrossNode zeroNumerics (select defaultMemory .narrowRange) 7 = true ∧
      risesAcrossNode { zeroNumerics with add := fun _ _ => 0x7F800000#32 } (select defaultMemory .narrowRange) 7 = false := by
  decide

theorem witness_RisingIsCheckedOrAssumedByName_check : defaultMemory.wf = true := by decide

/-- Contents whose bank W has node `i` at count `i` and velocity `i`, so that every count is a node or beyond the ends. -/
def unitMemory : Memory where
  bankN := defaultBankN
  bankW := { cnt := (List.range 13).map (BitVec.ofNat 16), vel := (List.range 13).map Binary32.ofNat }

theorem witness_CheckAcrossNodesDecidesRising : unitMemory.wf = true ∧ unitMemory.signsClear = true := by decide

theorem unitMemory_result (c : Count) :
    interpolate binary32 (select unitMemory .wideRange) c = some (Binary32.ofNat (min c.toNat 12)) := by
  rcases Nat.lt_or_ge c.toNat 12 with h | h
  · have hc : c = BitVec.ofNat 16 c.toNat := by simp
    have key : ∀ k < 12, interpolate binary32 (select unitMemory .wideRange) (BitVec.ofNat 16 k) =
      some (Binary32.ofNat (min k 12)) := by decide
    rw [hc]
    simpa using key c.toNat h
  · have he : readEnds (select unitMemory .wideRange) = some (⟨0#16, Binary32.ofNat 0⟩, ⟨12#16, Binary32.ofNat 12⟩) := by
      decide
    have hhigh : classify c 0#16 12#16 = .high := by
      unfold classify
      rw [if_neg (by simp; omega), if_pos (by simpa using h)]
    simp only [interpolate, he, hhigh, Nat.min_eq_right h]
    rfl

theorem witness_RisingIsCheckedOrAssumedByName_assumed :
    RisesWithTheCount (withRom unitMemory).numerics (withRom unitMemory).rom .wideRange ∧ (5#16).toNat < (6#16).toNat ∧
      (∃ t, exec (interp .wideRange 5#16) (withRom unitMemory) = .next t) ∧
      (∃ t, exec (interp .wideRange 6#16) (withRom unitMemory) = .next t) := by
  refine ⟨fun c c' h => ?_, by decide, ⟨_, rfl⟩, ⟨_, rfl⟩⟩
  have order : ∀ j < 13, ∀ i ≤ j, Binary32.le (Binary32.ofNat i) (Binary32.ofNat j) = true := by decide
  show resultsInOrder binary32 unitMemory .wideRange c c' = true
  simp only [resultsInOrder, unitMemory_result]
  exact order _ (by omega) _ (by omega)

theorem witness_ResultsAreNotBelowTheFirstNode :
    (State.reset.config.num = .standard ∧ State.reset.rom.wf = true ∧ State.reset.rom.signsClear = true ∧
      readVel State.reset.rom .wideRange 0 = some 0x00000000#32) ∧
    (∃ t, exec (interp .wideRange 3600#16) State.reset = .next t) := ⟨by decide, ⟨_, rfl⟩⟩

theorem witness_DefaultResultsStayInRange : State.reset.config = defaultConfiguration := rfl

theorem witness_ModerateTablesNeverOverflow :
    defaultMemory.wf = true ∧ defaultMemory.signsClear = true ∧ defaultMemory.moderate = true ∧
      readCnt defaultMemory .narrowRange 7 = some 3572#16 ∧ readVel defaultMemory .narrowRange 7 = some 0x40DFAE14#32 ∧
      readCnt defaultMemory .narrowRange (7 + 1) = some 3686#16 ∧
      readVel defaultMemory .narrowRange (7 + 1) = some 0x40E75C29#32 ∧
      (3572#16).toNat ≤ (3685#16).toNat ∧ (3685#16).toNat < (3686#16).toNat := by decide

theorem witness_WiresAreNeverNegative :
    defaultMemory.wf = true ∧ defaultMemory.signsClear = true ∧
      readCnt defaultMemory .wideRange 0 = some 409#16 ∧ readVel defaultMemory .wideRange 0 = some 0x00000000#32 ∧
      readCnt defaultMemory .wideRange (0 + 1) = some 1203#16 ∧
      readVel defaultMemory .wideRange (0 + 1) = some 0x40000000#32 ∧
      (409#16).toNat ≤ (409#16).toNat ∧ (409#16).toNat < (1203#16).toNat := by decide

/-- The wires of the worked example of R82. -/
theorem test_wires_909 :
    lerpWires binary32 909#16 409#16 0x00000000#32 915#16 0x3F88F5C3#32 =
      { x := 0x44634000#32, a := 0x43CC8000#32, b := 0x4464C000#32, t1 := 0x43FA0000#32, t2 := 0x3F88F5C3#32,
        t3 := 0x4405C000#32, t4 := 0x43FD0000#32, t5 := 0x3F875602#32, y := 0x3F875602#32 } := rfl

theorem witness_RoundedResultIsNearTheExactOne :
    ((409#16).toNat ≤ (909#16).toNat ∧ (909#16).toNat < (915#16).toNat ∧ Binary32.isFinite 0x00000000#32 = true ∧
      Binary32.isFinite 0x3F88F5C3#32 = true ∧ Binary32.signBit 0x00000000#32 = false ∧
      Binary32.signBit 0x3F88F5C3#32 = false ∧ Binary32.le 0x00000000#32 0x3F88F5C3#32 = true) ∧
    (let w := lerpWires binary32 909#16 409#16 0x00000000#32 915#16 0x3F88F5C3#32
     (∀ f ∈ [w.t2, w.t3, w.t5], Binary32.isZero f = true ∨ Binary32.isNormal f = true) ∧
       Binary32.isFinite w.y = true) :=
  ⟨by decide, by
    rw [test_wires_909]
    refine ⟨fun f hf => ?_, by decide⟩
    simp only [List.mem_cons, List.not_mem_nil, or_false] at hf
    rcases hf with rfl | rfl | rfl <;> exact .inr (by decide)⟩

theorem witness_DefaultResultsAreNearTheExactOnes :
    (State.reset.config = defaultConfiguration ∧ 409 < (3652#16).toNat ∧ readCnt State.reset.rom .wideRange 11 = some 3563#16 ∧
      readVel State.reset.rom .wideRange 11 = some 0x41500000#32 ∧
      readCnt State.reset.rom .wideRange (11 + 1) = some 3686#16 ∧
      readVel State.reset.rom .wideRange (11 + 1) = some 0x41700000#32 ∧
      readVel State.reset.rom .wideRange (nodes .wideRange - 1) = some 0x41700000#32 ∧
      (3563#16).toNat ≤ (3652#16).toNat ∧ (3652#16).toNat < (3686#16).toNat) ∧
    (∃ t, exec (interp .wideRange 3652#16) State.reset = .next t) := ⟨by decide, ⟨_, rfl⟩⟩

/-- A sound state whose step interpolates. -/
theorem witness_StepKeepsTheStateSound :
    (present (.interpN 909#16) State.reset).Sound ∧ ∃ t, step (present (.interpN 909#16) State.reset) = .next t :=
  ⟨by decide, ⟨_, rfl⟩⟩

/-- A state in range whose step interpolates. -/
theorem witness_StepKeepsTheOutputInRange :
    (present (.interpW 3600#16) State.reset).InRange ∧ ∃ t, step (present (.interpW 3600#16) State.reset) = .next t :=
  ⟨by decide, ⟨_, rfl⟩⟩

end Sys2Proof.Tests
end

section
/-! PROOFS. The family of 00_scope.md: the numerics record is a parameter of the step (R5, R23). -/

namespace Sys2Proof.Machine

/-- R23: the dispatch hands the record of the configuration to the operation and does nothing else with it. -/
theorem exec_eq_execWith (i : Instr) (s : State) : exec i s = execWith s.numerics i s := exec_eq i s

theorem step_eq_stepWith (s : State) : step s = stepWith s.numerics s := exec_eq_execWith (decode (request s)) s

/-- A state has its record from its configuration and from nothing else (R5). -/
theorem numerics_eq_of_config_eq {s t : State} (h : t.config = s.config) : t.numerics = s.numerics :=
  congrArg (fun c : Configuration => numericsOf c.num) h

theorem numerics_of_defaultConfiguration {s : State} (h : s.config = defaultConfiguration) : s.numerics = binary32 :=
  numerics_eq_of_config_eq (s := State.reset) h

theorem step_keeps_config {s t : State} (h : step s = .next t) : t.config = s.config := exec_keeps_config h

/-- Settles O13: `exec_eq` for the parameter, and the frame of a step for what it keeps. -/
theorem numericsAreAParameterOfTheStep : Obligations.NumericsAreAParameterOfTheStep := by
  refine ⟨fun s i => ⟨exec_eq_execWith i s, step_eq_stepWith s⟩, fun _ => numerics_of_defaultConfiguration,
    fun s t h => ?_⟩
  have hconfig : t.config = s.config := step_keeps_config h
  exact ⟨hconfig, numerics_eq_of_config_eq hconfig⟩

end Sys2Proof.Machine
end

section
/-! PROOFS. The family of 10_state.md: the step, the ports and the output wire, and the invariant of a run. -/

namespace Sys2Proof

/- The request word and its two fields (30_encoding.md R45). -/

@[simp] theorem interp_variant (v : Variant) (c : Count) : (interp v c).variant = v := by cases v <;> rfl
@[simp] theorem interp_count (v : Variant) (c : Count) : (interp v c).count = c := by cases v <;> rfl

/-- An operation is the one of its variant and its operand. -/
@[simp] theorem interp_variant_count (i : Instr) : interp i.variant i.count = i := by cases i <;> rfl

@[simp] theorem variantOfBit_variantBit (v : Variant) : variantOfBit (variantBit v) = v := by cases v <;> rfl

@[simp] theorem variantBit_variantOfBit (b : BitVec 1) : variantBit (variantOfBit b) = b := by
  rcases BitVec.eq_zero_or_eq_one b with rfl | rfl <;> rfl

@[simp] theorem decode_append (v : Variant) (c : Count) : decode (variantBit v ++ c) = interp v c := by simp [decode]

@[simp] theorem decode_encode (i : Instr) : decode (encode i) = i := by simp [encode]

/-- A word is its two fields: no bit of it is dropped. -/
@[simp] theorem variantField_append_countField (w : RequestWord) : variantField w ++ countField w = w := by
  apply BitVec.eq_of_toNat_eq
  rw [toNat_word, variantField, countField, BitVec.extractLsb'_toNat, BitVec.extractLsb'_toNat, Nat.shiftRight_zero,
    Nat.shiftRight_eq_div_pow]
  have := w.isLt
  omega

end Sys2Proof

namespace Sys2Proof.Machine

/- What is on the ports, and what a step runs (10_state.md R22). -/

@[simp] theorem decode_request (s : State) : decode (request s) = interp s.variant s.count := decode_append _ _

@[simp] theorem request_present (i : Instr) (s : State) : request (present i s) = encode i := by
  simp [request, encode]

@[simp] theorem request_presentWord (w : RequestWord) (s : State) : request (presentWord w s) = w := by
  simp [request, presentWord]

/-- Placing a word for the next step is presenting it (notes/assumptions/14.md). -/
theorem withFetchWord_eq_presentWord (w : RequestWord) (s : State) : s.withFetchWord 24 w.toNat = presentWord w s := by
  have hw : w.toNat % 2 ^ 24 = w.toNat := Nat.mod_eq_of_lt (by omega)
  rw [State.withFetchWord, hw, BitVec.ofNat_toNat, BitVec.setWidth_eq]

/-- A step runs the operation that the word on the ports decodes to. -/
theorem step_eq_exec {s : State} {i : Instr} (h : decode (request s) = i) : step s = exec i s := by rw [step, h]

/-- Settles O7: the word on the ports after `present` is the operation's, and it decodes to the operation. -/
theorem stepRunsTheRequestOnThePorts : Obligations.StepRunsTheRequestOnThePorts :=
  ⟨fun _ _ => step_eq_exec, fun i s => ⟨request_present s i, step_eq_exec (by rw [request_present, decode_encode])⟩⟩

/-- Settles O8: a placed word is presented whole, so it is what the ports hold and what the step decodes. -/
theorem placedWordIsRunNext : Obligations.PlacedWordIsRunNext := by
  intro s w
  rw [withFetchWord_eq_presentWord]
  exact ⟨request_presentWord w s, step_eq_exec (by rw [request_presentWord])⟩

/- The value on `VELOCITY` is read by nothing (R10, R18). -/

@[simp] theorem exec_driveVelocity (i : Instr) (f : F32) (s : State) : exec i (driveVelocity f s) = exec i s := by
  rw [exec_eq, exec_eq]
  rfl

/-- Settles O11: an evaluation overwrites the output and reads the configuration and the inputs only. -/
theorem velocityIsNeverRead : Obligations.VelocityIsNeverRead :=
  fun i s f => ⟨exec_driveVelocity i f s, exec_driveVelocity (decode (request s)) f s⟩

/- The output wire and the step (R10, R18, R21). -/

theorem output_eq_some (s : State) (y : F32) :
    output s = some y ↔ s.rom.wf = true ∧ interpolate s.numerics (select s.rom s.variant) s.count = some y := by
  unfold output
  split <;> simp [*]

/-- Everything a step can do when it answers a next state: it drives the output of the current inputs. -/
theorem step_eq_next (s t : State) : step s = .next t ↔ ∃ y, output s = some y ∧ t = driveVelocity y s := by
  simp only [step, exec_eq_next, decode_request, interp_variant, interp_count, output_eq_some, and_assoc,
    exists_and_left]

/-- A settled state is driven to itself. -/
theorem State.Settled.step_eq {s : State} (h : s.Settled) : step s = .next s := (step_eq_next s s).mpr ⟨_, h, rfl⟩

/-- Driving the output of the current inputs settles the state. -/
theorem settled_driveVelocity {s : State} {y : F32} (h : output s = some y) : (driveVelocity y s).Settled := h

theorem settled_of_step {s t : State} (h : step s = .next t) : t.Settled := by
  obtain ⟨y, hy, rfl⟩ := (step_eq_next s t).mp h
  exact settled_driveVelocity hy

theorem follow_of_output {s : State} {y : F32} (h : output s = some y) : follow s = driveVelocity y s := by
  rw [follow, h]

/-- On legal contents the wire has settled as soon as it has followed. -/
theorem settled_follow {s : State} (h : s.rom.wf = true) : (follow s).Settled := by
  obtain ⟨y, hy⟩ := output_of_wf h
  rw [follow_of_output hy]
  exact settled_driveVelocity hy

/-- On legal contents what the wire held before does not matter to what it follows to. -/
theorem follow_driveVelocity {s : State} (h : s.rom.wf = true) (f : F32) : follow (driveVelocity f s) = follow s := by
  obtain ⟨y, hy⟩ := output_of_wf h
  rw [follow_of_output hy, follow_of_output (s := driveVelocity f s) hy, driveVelocity_twice]

theorem settled_drive {s : State} (h : s.rom.wf = true) (v : Variant) (c : Count) : (drive v c s).Settled :=
  settled_follow (s := setInputs v c s) h

/-- Settles O12: every way to change an input is a `drive`, and `drive` lets the wire follow. -/
theorem outputFollowsTheInputs : Obligations.OutputFollowsTheInputs := by
  intro s h
  refine ⟨fun v c f => ⟨settled_drive h v c, drive_variant v c s, drive_count v c s, drive_config v c s, ?_⟩,
    fun i => settled_drive h _ _, fun w => ⟨settled_drive h _ _, settled_drive h _ _⟩, State.Settled.step_eq⟩
  exact follow_driveVelocity (s := setInputs v c s) h f

/-- Settles O14: a step settles the state, and a step of a settled state changes nothing. -/
theorem stepSettlesTheOutput : Obligations.StepSettlesTheOutput :=
  fun _ _ h => ⟨settled_of_step h, (settled_of_step h).step_eq⟩

theorem settled_reset : State.reset.Settled := by decide

/-- Settles O15: the reset state is settled, so a step answers it again. -/
theorem resetStateIsSettled : Obligations.ResetStateIsSettled :=
  ⟨rfl, rfl, reset_wf, settled_reset, settled_reset.step_eq⟩

/-- Settles O52, by evaluating both invariants at the one state. -/
theorem resetStateIsSound : Obligations.ResetStateIsSound := by
  constructor
  · decide
  · decide

end Sys2Proof.Machine
end

section
/-! PROOFS. The family of 10_state.md, its invariant: the signs and the NaNs of the default numerics (42_interpolate.md R91,
R92), and what follows for every wire of LERP and for every step. -/

namespace Sys2Proof.Machine.Binary32

/- Bits 30:0 and the absolute value order the finite patterns alike. -/

theorem absUnits_eq_of_magnitude_eq {a b : F32} (h : magnitude a = magnitude b) : absUnits a = absUnits b := by
  have ha := fraction_lt a
  have hb := fraction_lt b
  rw [magnitude_eq, magnitude_eq] at h
  have he : exponent a = exponent b := by omega
  have hf : fraction a = fraction b := by omega
  rw [absUnits, absUnits, he, hf]

theorem magnitude_le_of_absUnits_le {a b : F32} (h : absUnits a ≤ absUnits b) : magnitude a ≤ magnitude b := by
  rw [← roundedMagnitude_absUnits a Nat.one_pos, ← roundedMagnitude_absUnits b Nat.one_pos]
  exact roundedMagnitude_mono Nat.one_pos Nat.one_pos (by omega)

theorem absUnits_le_iff (a b : F32) : absUnits a ≤ absUnits b ↔ magnitude a ≤ magnitude b := by
  refine ⟨magnitude_le_of_absUnits_le, fun h => ?_⟩
  by_contra hlt
  have heq : magnitude a = magnitude b := le_antisymm h (magnitude_le_of_absUnits_le (by omega))
  exact hlt (absUnits_eq_of_magnitude_eq heq).le

@[simp] theorem absUnits_negate (a : F32) : absUnits (negate a) = absUnits a :=
  absUnits_eq_of_magnitude_eq (magnitude_negate a)

/-- A pattern that is no NaN and has sign bit 0: a value of at least +0, perhaps the infinity (R92). -/
structure NotNegative (a : F32) : Prop where
  not_nan : isNaN a = false
  sign : signBit a = false

/-- A finite pattern with sign bit 0. -/
structure FiniteNotNegative (a : F32) : Prop where
  finite : isFinite a = true
  sign : signBit a = false

theorem FiniteNotNegative.notNegative {a : F32} (h : FiniteNotNegative a) : NotNegative a :=
  ⟨isNaN_of_isFinite h.finite, h.sign⟩

theorem FiniteNotNegative.units_eq {a : F32} (h : FiniteNotNegative a) : units a = absUnits a := by
  simp [units, h.sign]

theorem FiniteNotNegative.units_negate {a : F32} (h : FiniteNotNegative a) : units (negate a) = -(absUnits a : Int) := by
  simp [units, h.sign]

theorem FiniteNotNegative.le_iff {a b : F32} (ha : FiniteNotNegative a) (hb : FiniteNotNegative b) :
    le a b = true ↔ absUnits a ≤ absUnits b := by
  simp [le, orderKey, isNaN_of_isFinite, ha.finite, hb.finite, ha.sign, hb.sign, absUnits_le_iff]

theorem NotNegative.signOfProduct_eq {a b : F32} (ha : NotNegative a) (hb : NotNegative b) :
    signOfProduct a b = false := by
  simp [signOfProduct, ha.sign, hb.sign]

theorem notNegative_round (n d : Nat) : NotNegative (round false n d) := ⟨isNaN_round _ _ _, signBit_round _ _ _⟩

theorem notNegative_infinity : NotNegative (pack false infinityMagnitude) := by constructor <;> decide

theorem isFinite_negate {a : F32} (h : isFinite a = true) : isFinite (negate a) = true := by
  simpa [isFinite] using h

/-- A value of no more than a finite one is rounded to a finite one. -/
theorem isFinite_round_of_le {a : F32} (ha : isFinite a = true) (negative : Bool) {n : Nat} (h : n ≤ absUnits a) :
    isFinite (round negative n 1) = true := by
  have hle : roundedMagnitude n 1 ≤ roundedMagnitude (absUnits a * 1) 1 :=
    roundedMagnitude_mono Nat.one_pos Nat.one_pos (by omega)
  rw [roundedMagnitude_absUnits a Nat.one_pos] at hle
  simp only [isFinite, decide_eq_true_eq, magnitude_round_eq] at ha ⊢
  omega

/-- Gradual underflow (R85): a value of at least one unit is not rounded to zero. -/
theorem isZero_round_of_pos (negative : Bool) {n : Nat} (h : 0 < n) : isZero (round negative n 1) = false := by
  have hle : magnitude (round false 1 1) ≤ magnitude (round negative n 1) :=
    magnitude_round_mono _ _ Nat.one_pos Nat.one_pos (by omega)
  have hone : magnitude (round false 1 1) = 1 := by decide
  simp only [isZero, decide_eq_false_iff_not]
  omega

/- The operations of `NUM` on operands that are not negative. -/

/-- A difference of ordered values is one rounding of the exact difference, which no more than the minuend can be. -/
theorem sub_eq_round {a b : F32} (ha : FiniteNotNegative a) (hb : FiniteNotNegative b) (h : absUnits b ≤ absUnits a) :
    sub a b = round false (absUnits a - absUnits b) 1 := by
  rw [sub, addFor_of_isFinite _ ha.finite (isFinite_negate hb.finite), ha.units_eq, hb.units_negate, ha.sign]
  have hsum : (absUnits a : Int) + -(absUnits b : Int) = (absUnits a - absUnits b : Nat) := by omega
  rw [hsum]
  split
  · rename_i hz
    rw [Int.natCast_eq_zero.mp hz, Bool.false_and]
    decide
  · rw [Int.natAbs_natCast, decide_eq_false (Int.natCast_nonneg _).not_gt]

theorem finiteNotNegative_sub {a b : F32} (ha : FiniteNotNegative a) (hb : FiniteNotNegative b)
    (h : absUnits b ≤ absUnits a) : FiniteNotNegative (sub a b) := by
  rw [sub_eq_round ha hb h]
  exact ⟨isFinite_round_of_le ha.finite _ (Nat.sub_le _ _), signBit_round _ _ _⟩

theorem isZero_sub_of_lt {a b : F32} (ha : FiniteNotNegative a) (hb : FiniteNotNegative b)
    (h : absUnits b < absUnits a) : isZero (sub a b) = false := by
  rw [sub_eq_round ha hb h.le]
  exact isZero_round_of_pos _ (Nat.sub_pos_of_lt h)

theorem notNegative_mul {a b : F32} (ha : FiniteNotNegative a) (hb : FiniteNotNegative b) : NotNegative (mul a b) := by
  rw [mul_of_isFinite ha.finite hb.finite, ha.notNegative.signOfProduct_eq hb.notNegative]
  exact notNegative_round _ _

theorem isFinite_of_not_nan_of_not_infinite {a : F32} (hn : isNaN a = false) (hi : isInfinite a = false) :
    isFinite a = true := by
  simp [isNaN, isInfinite, isFinite] at *
  omega

/-- The dividend may have overflowed; the divisor is finite and no zero, so no NaN arises (R91). -/
theorem notNegative_div {a b : F32} (ha : NotNegative a) (hb : FiniteNotNegative b) (hz : isZero b = false) :
    NotNegative (div a b) := by
  have hs := ha.signOfProduct_eq hb.notNegative
  rcases hi : isInfinite a with _ | _
  · rw [div_of_isFinite (isFinite_of_not_nan_of_not_infinite ha.not_nan hi) hb.finite hz, hs]
    exact notNegative_round _ _
  · have hdiv : div a b = pack false infinityMagnitude := by
      simp [div, ha.not_nan, isNaN_of_isFinite, isInfinite_of_isFinite, hb.finite, hi, hs]
    rw [hdiv]
    exact notNegative_infinity

/-- Of the two terms the second may have overflowed. -/
theorem notNegative_add {a b : F32} (ha : FiniteNotNegative a) (hb : NotNegative b) : NotNegative (add a b) := by
  rcases hi : isInfinite b with _ | _
  · have hfb : FiniteNotNegative b := ⟨isFinite_of_not_nan_of_not_infinite hb.not_nan hi, hb.sign⟩
    rw [add, addFor_of_isFinite _ ha.finite hfb.finite, ha.units_eq, hfb.units_eq, ha.sign]
    split
    · exact ⟨by rw [Bool.false_and]; decide, signBit_pack _ _⟩
    · rw [decide_eq_false (by omega)]
      exact notNegative_round _ _
  · have hadd : add a b = b := by
      simp [add, addFor, hb.not_nan, isNaN_of_isFinite, isInfinite_of_isFinite, ha.finite, hi]
    rwa [hadd]

/- Widening (R86). -/

/-- The value of the pattern whose bits 30:0 are a significand with a shift, in the encoding that `round` writes. -/
theorem absUnits_of_magnitude_eq {a : F32} {k m : Nat} (h : magnitude a = k * 2 ^ 23 + m) (hlow : 2 ^ 23 ≤ m)
    (hhigh : m < 2 ^ 24) : absUnits a = m * 2 ^ k := by
  have hf := fraction_lt a
  rw [magnitude_eq] at h
  have he : exponent a = k + 1 := by omega
  have hfr : 2 ^ 23 + fraction a = m := by omega
  rw [absUnits, if_neg (by omega), hfr, he, Nat.add_sub_cancel]

/-- Every normal significand and shift of the format has a pattern. -/
theorem exists_absUnits_eq_significand {k m : Nat} (hk : k < 254) (hlow : 2 ^ 23 ≤ m) (hhigh : m < 2 ^ 24) :
    ∃ a, FiniteNotNegative a ∧ absUnits a = m * 2 ^ k := by
  have hmag : magnitude (pack false (k * 2 ^ 23 + m)) = k * 2 ^ 23 + m := magnitude_pack false (by omega)
  refine ⟨pack false (k * 2 ^ 23 + m), ⟨?_, signBit_pack _ _⟩, absUnits_of_magnitude_eq hmag hlow hhigh⟩
  rw [isFinite, hmag, infinityMagnitude]
  exact decide_eq_true (by omega)

/-- An integer below 2^24 has a pattern: its leading one is moved to bit 23 of the significand. -/
theorem exists_absUnits_eq_integer {u : Nat} (h : u < 2 ^ 24) : ∃ a, FiniteNotNegative a ∧ absUnits a = u * 2 ^ 149 := by
  rcases Nat.eq_zero_or_pos u with rfl | hpos
  · exact ⟨0x00000000#32, ⟨by decide, by decide⟩, by decide⟩
  · have hlog : Nat.log2 u < 24 := (Nat.log2_lt hpos.ne').mpr h
    obtain ⟨j, hj⟩ : ∃ j, 23 = Nat.log2 u + j := Nat.exists_eq_add_of_le (by omega)
    have hlow : 2 ^ 23 ≤ u * 2 ^ j := by
      rw [hj, pow_add]
      exact Nat.mul_le_mul_right _ (Nat.log2_self_le hpos.ne')
    have hhigh : u * 2 ^ j < 2 ^ 24 := by
      rw [show 24 = Nat.log2 u + 1 + j by omega, pow_add]
      exact Nat.mul_lt_mul_of_pos_right Nat.lt_log2_self (Nat.two_pow_pos j)
    obtain ⟨a, ha, hu⟩ := exists_absUnits_eq_significand (k := 149 - j) (by omega) hlow hhigh
    exact ⟨a, ha, by rw [hu, mul_assoc, ← pow_add, Nat.add_sub_cancel' (by omega)]⟩

/-- Such an integer is widened exactly. -/
theorem ofNat_exact {u : Nat} (h : u < 2 ^ 24) : FiniteNotNegative (ofNat u) ∧ absUnits (ofNat u) = u * 2 ^ 149 := by
  obtain ⟨a, ha, hu⟩ := exists_absUnits_eq_integer h
  have hround : ofNat u = a := by
    rw [← round_absUnits ha.finite Nat.one_pos, ha.sign, hu, mul_one]
    rfl
  rw [hround]
  exact ⟨ha, hu⟩

theorem finiteNotNegative_cvt (u : Count) : FiniteNotNegative (cvt u) := (ofNat_exact (by omega)).1

@[simp] theorem absUnits_cvt (u : Count) : absUnits (cvt u) = u.toNat * 2 ^ 149 := (ofNat_exact (by omega)).2

end Sys2Proof.Machine.Binary32

namespace Sys2Proof.Machine

open Binary32 (NotNegative FiniteNotNegative)

/-- R91, R92: in a segment with ordered finite velocities of sign 0 no wire of LERP is a NaN or has its sign bit set. -/
theorem lerpWires_notNegative {count c0 c1 : Count} {v0 v1 : F32} (hlow : c0.toNat ≤ count.toNat)
    (hhigh : count.toNat < c1.toNat) (h0 : FiniteNotNegative v0) (h1 : FiniteNotNegative v1)
    (hle : Binary32.le v0 v1 = true) :
    let w := lerpWires binary32 count c0 v0 c1 v1
    ∀ f ∈ [w.x, w.a, w.b, w.t1, w.t2, w.t3, w.t4, w.t5, w.y], NotNegative f := by
  have hcvt := Binary32.finiteNotNegative_cvt
  have ht1 : FiniteNotNegative (Binary32.sub (Binary32.cvt count) (Binary32.cvt c0)) :=
    Binary32.finiteNotNegative_sub (hcvt _) (hcvt _) (by simpa using hlow)
  have ht2 : FiniteNotNegative (Binary32.sub v1 v0) := Binary32.finiteNotNegative_sub h1 h0 ((h0.le_iff h1).mp hle)
  have ht3 := Binary32.notNegative_mul ht1 ht2
  have hlt : Binary32.absUnits (Binary32.cvt c0) < Binary32.absUnits (Binary32.cvt c1) := by
    simpa using hlow.trans_lt hhigh
  have ht4 := Binary32.finiteNotNegative_sub (hcvt _) (hcvt _) hlt.le
  have ht5 := Binary32.notNegative_div ht3 ht4 (Binary32.isZero_sub_of_lt (hcvt _) (hcvt _) hlt)
  have hy := Binary32.notNegative_add h0 ht5
  simp only [List.forall_mem_cons]
  exact ⟨(hcvt _).notNegative, (hcvt _).notNegative, (hcvt _).notNegative, ht1.notNegative, ht2.notNegative, ht3,
    ht4.notNegative, ht5, hy, List.forall_mem_nil _⟩

theorem lerp_notNegative {count c0 c1 : Count} {v0 v1 : F32} (hlow : c0.toNat ≤ count.toNat)
    (hhigh : count.toNat < c1.toNat) (h0 : FiniteNotNegative v0) (h1 : FiniteNotNegative v1)
    (hle : Binary32.le v0 v1 = true) : NotNegative (lerp binary32 count c0 v0 c1 v1) :=
  lerpWires_notNegative hlow hhigh h0 h1 hle _ (by simp [lerp])

/-- A result is a stored velocity, or LERP over a segment that holds the count (R80, R81). -/
theorem interpolate_stored_or_lerp {num : Numerics} {t : Selection} {count : Count} {y : F32}
    (h : interpolate num t count = some y) :
    (∃ i : Nat, t.v[i]? = some y) ∨
    ∃ (i : Nat) (lower upper : Node), readNode t i = some lower ∧ readNode t (i + 1) = some upper ∧
      lower.c.toNat ≤ count.toNat ∧ count.toNat < upper.c.toNat ∧ y = lerp num count lower.c lower.v upper.c upper.v := by
  obtain ⟨first, last, hends, hcase⟩ := interpolate_eq_some h
  obtain ⟨hfirst, hlast⟩ := (readEnds_eq_some _ _ _).mp hends
  rcases hcase with ⟨-, rfl⟩ | ⟨-, -, rfl⟩ | ⟨-, -, hinside⟩
  · exact .inl ⟨0, ((readNode_eq_some _ _ _).mp hfirst).2⟩
  · exact .inl ⟨t.n - 1, ((readNode_eq_some _ _ _).mp hlast).2⟩
  · obtain ⟨i, lower, upper, hi, hread, rfl⟩ := interpolateInside_eq_some hinside
    obtain ⟨hl, hu⟩ := (read2_eq_some _ _ _ _).mp hread
    obtain ⟨c0, c1, hc0, hc1, hge, hlt⟩ := (holds_iff _ _ _).mp (bracket_holds hi).2
    rw [((readNode_eq_some _ _ _).mp hl).1] at hc0
    rw [((readNode_eq_some _ _ _).mp hu).1] at hc1
    cases hc0
    cases hc1
    exact .inr ⟨i, lower, upper, hl, hu, hge, hlt, rfl⟩

/-- R30(d) and the clear signs: what a velocity of legal contents without a set sign bit is. -/
theorem finiteNotNegative_vel {m : Memory} (hwf : m.wf = true) (hsigns : m.signsClear = true) {v : Variant} {i : Nat}
    {y : F32} (hy : (select m v).v[i]? = some y) : FiniteNotNegative y := by
  rw [select_v] at hy
  obtain ⟨-, -, -, hfinite⟩ := (Bank.wf_iff _ _).mp (Memory.wf_bank hwf v)
  refine ⟨Bank.vel_finite hfinite hy, ?_⟩
  have hmem : y ∈ m.bankN.vel ++ m.bankW.vel := by
    cases v
    · exact List.mem_append_left _ (List.mem_of_getElem? hy)
    · exact List.mem_append_right _ (List.mem_of_getElem? hy)
  simpa using List.all_eq_true.mp hsigns y hmem

/-- R20, R92: over such contents no result of the default numerics is a NaN or negative. -/
theorem interpolate_notNegative {m : Memory} (hwf : m.wf = true) (hsigns : m.signsClear = true) {v : Variant}
    {count : Count} {y : F32} (h : interpolate binary32 (select m v) count = some y) : NotNegative y := by
  rcases interpolate_stored_or_lerp h with ⟨i, hy⟩ | ⟨i, lower, upper, hl, hu, hge, hlt, rfl⟩
  · exact (finiteNotNegative_vel hwf hsigns hy).notNegative
  · have hv0 := ((readNode_eq_some _ _ _).mp hl).2
    have hv1 := ((readNode_eq_some _ _ _).mp hu).2
    obtain ⟨-, -, hrise, -⟩ := (Bank.wf_iff _ _).mp (Memory.wf_bank hwf v)
    have hle : Binary32.le lower.v upper.v = true :=
      Bank.vel_le hrise (Nat.lt_succ_self i) (by simpa using hv0) (by simpa using hv1)
    exact lerp_notNegative hge hlt (finiteNotNegative_vel hwf hsigns hv0) (finiteNotNegative_vel hwf hsigns hv1) hle

theorem numerics_of_standard {s : State} (h : s.config.num = .standard) : s.numerics = binary32 := by
  rw [State.numerics, h, numericsOf]

/-- Settles O51: the step keeps the configuration, and the output it drives is a result, so no NaN and not negative. -/
theorem stepKeepsTheStateSound : Obligations.StepKeepsTheStateSound := by
  rintro s t ⟨hnum, hwf, hsigns, -, -⟩ hstep
  obtain ⟨y, hy, rfl⟩ := (step_eq_next s t).mp hstep
  have hresult := ((output_eq_some s y).mp hy).2
  rw [numerics_of_standard hnum] at hresult
  have hvel : NotNegative y := interpolate_notNegative hwf hsigns hresult
  exact ⟨hnum, hwf, hsigns, hvel.not_nan, hvel.sign⟩

end Sys2Proof.Machine
end

section
/-! PROOFS. The family of 20_memory.md: the count of a frame (R33), the read primitives (R31, R32), the check of the contents
(R30), and the stored cells (R27 to R29). -/

namespace Sys2Proof.Machine

/- The count of a sensor frame (R33). -/

theorem toNat_countOfFrame (f : Frame) : (countOfFrame f).toNat = 256 * f.countHigh.toNat + f.countLow.toNat := by
  rw [countOfFrame, BitVec.toNat_append, ← Nat.shiftLeft_add_eq_or_of_lt f.countLow.isLt, Nat.shiftLeft_eq]
  omega

/-- Settles O6: the count is the two bytes appended, so each byte is its half of the count, and no other byte is looked at. -/
theorem countIsBigEndianFromTheFrame : Obligations.CountIsBigEndianFromTheFrame := by
  refine ⟨fun f => ⟨toNat_countOfFrame f, BitVec.extractLsb'_append_eq_left, BitVec.extractLsb'_append_eq_right⟩, ?_⟩
  intro f g hhigh hlow
  rw [countOfFrame, countOfFrame, hhigh, hlow]

/- The read primitives and a run of requests (R31). -/

@[simp] theorem readCnt_eq (m : Memory) (v : Variant) (i : Nat) : readCnt m v i = (m.bank v).cnt[i]? := by
  rw [readCnt, select_c]

@[simp] theorem readVel_eq (m : Memory) (v : Variant) (i : Nat) : readVel m v i = (m.bank v).vel[i]? := by
  rw [readVel, select_v]

theorem serve_keeps_config {i : Instr} {s t : State} (h : serve i s = .next t) : t.config = s.config :=
  (step_keeps_config h).trans (present_config i s)

/-- Everything an answered program of one request or more can do: its first request is answered, and the others from there. -/
theorem respond_cons_eq_some {i : Instr} {program : List Instr} {s u : State} {results : List F32}
    (h : respond (i :: program) s = some (results, u)) :
    ∃ t rest, serve i s = .next t ∧ respond program t = some (rest, u) ∧ results = t.velocity :: rest := by
  rw [respond] at h
  split at h
  · rename_i t hserve
    split at h
    · rename_i rest u' hrest
      cases h
      exact ⟨t, rest, hserve, hrest, rfl⟩
    · cases h
  · cases h
  · cases h

/-- R39: no run of requests writes the configuration. -/
theorem respond_keeps_config {program : List Instr} {s t : State} {results : List F32}
    (h : respond program s = some (results, t)) : t.config = s.config := by
  induction program generalizing s results with
  | nil => cases h; rfl
  | cons i program ih =>
    obtain ⟨s', rest, hserve, hrest, -⟩ := respond_cons_eq_some h
    exact (ih hrest).trans (serve_keeps_config hserve)

/-- Settles O17: a read is an element of the selected bank, and a run keeps the configuration, which holds both banks. -/
theorem readsComeFromTheSelectedBank : Obligations.ReadsComeFromTheSelectedBank := by
  refine ⟨fun m i => ⟨rfl, rfl, rfl, rfl⟩, fun program s t results h v i => ?_⟩
  have hrom : t.rom = s.rom := congrArg Configuration.rom (respond_keeps_config h)
  rw [hrom]
  exact ⟨rfl, rfl⟩

/- The indices that an evaluation generates (R32). -/

theorem readEnds_of_wf {m : Memory} (h : m.wf = true) (v : Variant) :
    ∃ first last, readEnds (select m v) = some (first, last) := by
  have hn := two_le_nodes v
  obtain ⟨first, hfirst⟩ := readNode_of_wf h v (i := 0) (by omega)
  obtain ⟨last, hlast⟩ := readNode_of_wf h v (i := nodes v - 1) (by omega)
  exact ⟨first, last, (readEnds_eq_some _ _ _).mpr ⟨hfirst, by rwa [select_n]⟩⟩

theorem read2_of_wf {m : Memory} (h : m.wf = true) (v : Variant) {i : Nat} (hi : i < nodes v - 1) :
    ∃ lower upper, read2 (select m v) i = some (lower, upper) := by
  obtain ⟨lower, hlower⟩ := readNode_of_wf h v (i := i) (by omega)
  obtain ⟨upper, hupper⟩ := readNode_of_wf h v (i := i + 1) (by omega)
  exact ⟨lower, upper, (read2_eq_some _ _ _ _).mpr ⟨hlower, hupper⟩⟩

/-- Settles O23: BRACKET answers an index below `N - 1`, and legal contents have `N` nodes. -/
theorem generatedIndicesAreLegal : Obligations.GeneratedIndicesAreLegal := by
  intro m v count hwf
  refine ⟨readEnds_of_wf hwf v, fun i hbracket => ?_⟩
  have hi : i < nodes v - 1 := by
    have hlt := (bracket_holds hbracket).1
    rwa [select_n] at hlt
  exact ⟨by omega, read2_of_wf hwf v hi⟩

/- The check of R30, clause by clause, in terms of the elements that are read. -/

/-- A list is related neighbour by neighbour exactly when every element is related to the one read after it. -/
theorem neighbours_iff {α : Type} {r : α → α → Bool} {l : List α} :
    neighbours r l = true ↔ ∀ (i : Nat) (a b : α), l[i]? = some a → l[i + 1]? = some b → r a b = true := by
  refine ⟨fun h _ _ _ => neighbours_get h, fun h => ?_⟩
  induction l with
  | nil => rfl
  | cons a rest ih =>
    cases rest with
    | nil => rfl
    | cons b rest =>
      have hhead : r a b = true := h 0 a b rfl rfl
      have htail : neighbours r (b :: rest) = true := ih fun i => h (i + 1)
      rw [neighbours, hhead, htail, Bool.and_self]

theorem Bank.countsIncrease_iff (b : Bank) :
    b.countsIncrease = true ↔
      ∀ (i : Nat) (p q : Count), b.cnt[i]? = some p → b.cnt[i + 1]? = some q → p.toNat < q.toNat := by
  simp only [Bank.countsIncrease, neighbours_iff, decide_eq_true_eq]

theorem Bank.velocitiesRise_iff (b : Bank) :
    b.velocitiesRise = true ↔
      ∀ (i : Nat) (p q : F32), b.vel[i]? = some p → b.vel[i + 1]? = some q → Binary32.le p q = true :=
  neighbours_iff

theorem Bank.velocitiesFinite_iff (b : Bank) :
    b.velocitiesFinite = true ↔ ∀ (i : Nat) (p : F32), b.vel[i]? = some p → Binary32.isFinite p = true := by
  refine ⟨fun h _ _ => Bank.vel_finite h, fun h => List.all_eq_true.mpr fun p hp => ?_⟩
  obtain ⟨i, hi⟩ := List.mem_iff_getElem?.mp hp
  exact h i p hi

/- The source's decimal literals of bank N, rounded to binary32 (R29). -/

theorem ofDecimal_zero : Binary32.ofDecimal 0 1 = 0x00000000#32 := by decide
theorem ofDecimal_107_100 : Binary32.ofDecimal 107 100 = 0x3F88F5C3#32 := by decide
theorem ofDecimal_723_100 : Binary32.ofDecimal 723 100 = 0x40E75C29#32 := by decide

theorem Memory.sourceCells_iff (m : Memory) :
    m.sourceCells = true ↔
      m.bankN.cnt[0]? = some 409#16 ∧ m.bankN.vel[0]? = some (Binary32.ofDecimal 0 1) ∧
      m.bankN.cnt[1]? = some 915#16 ∧ m.bankN.vel[1]? = some (Binary32.ofDecimal 107 100) ∧
      m.bankN.vel[8]? = some (Binary32.ofDecimal 723 100) := by
  simp only [Memory.sourceCells, Bool.and_eq_true, beq_iff_eq, and_assoc, ofDecimal_zero, ofDecimal_107_100,
    ofDecimal_723_100]

theorem forall_variant {P : Variant → Prop} : (∀ v, P v) ↔ P .narrowRange ∧ P .wideRange :=
  ⟨fun h => ⟨h _, h _⟩, fun h v => by cases v; exacts [h.1, h.2]⟩

/-- The check, sorted by the clauses of R30 and not by the banks. -/
theorem Memory.wf_iff_clauses (m : Memory) :
    m.wf = true ↔
      (m.bankN.cnt.length = 9 ∧ m.bankN.vel.length = 9 ∧ m.bankW.cnt.length = 13 ∧ m.bankW.vel.length = 13) ∧
      (∀ v, (m.bank v).countsIncrease = true) ∧ (∀ v, (m.bank v).velocitiesRise = true) ∧
      (∀ v, (m.bank v).velocitiesFinite = true) ∧ m.sourceCells = true := by
  simp only [Memory.wf_iff, Bank.wf_iff, forall_variant, Memory.bank]
  tauto

theorem exec_refused {s : State} (h : s.rom.wf = false) (i : Instr) : exec i s = .refused .romConfiguration := by
  rw [exec_eq, evaluate, if_neg (by simp [h])]

/-- Settles O18: each clause of the check is its clause of R30, read by index, and the check stands before every
evaluation. -/
theorem configurationCheckIsTheRule : Obligations.ConfigurationCheckIsTheRule := by
  refine ⟨fun s i h => exec_refused h i, fun m => ?_⟩
  simp only [readCnt_eq, readVel_eq]
  rw [Memory.wf_iff_clauses, Memory.sourceCells_iff]
  simp only [Bank.countsIncrease_iff, Bank.velocitiesRise_iff, Bank.velocitiesFinite_iff]
  exact Iff.rfl

/- The stored cells (R27, R28, R29). -/

/-- The exact value of a pattern is its number of units, scaled. -/
theorem map_value (l : List F32) : l.map value = (l.map Binary32.units).map fun u : Int => (u : ℚ) / 2 ^ 149 := by
  rw [List.map_map]
  rfl

theorem units_defaultBankN : defaultBankN.vel.map Binary32.units =
    [0, 8975811 * 2 ^ 126, 8430551 * 2 ^ 127, 3 * 2 ^ 149, 16651387 * 2 ^ 127, 5200937 * 2 ^ 129, 12540969 * 2 ^ 128,
      3664773 * 2 ^ 130, 15162409 * 2 ^ 128] := by decide

theorem units_defaultBankW : defaultBankW.vel.map Binary32.units =
    [0, 2, 3, 4, 5, 6, 7, 8, 9, 10, 11, 13, 15].map fun k => k * 2 ^ 149 := by decide

theorem value_defaultBankN : defaultBankN.vel.map value = [0, 8975811 / 8388608, 8430551 / 4194304, 3, 16651387 / 4194304,
    5200937 / 1048576, 12540969 / 2097152, 3664773 / 524288, 15162409 / 2097152] := by
  rw [map_value, units_defaultBankN]
  norm_num

theorem value_defaultBankW : defaultBankW.vel.map value = [0, 2, 3, 4, 5, 6, 7, 8, 9, 10, 11, 13, 15] := by
  rw [map_value, units_defaultBankW]
  norm_num

/-- Settles O16: the cells are read off and the literals are rounded by evaluation; the exact values follow from the cells'
integer units. -/
theorem storedCellsAreTheTabledLiterals : Obligations.StoredCellsAreTheTabledLiterals :=
  ⟨by decide, by decide, rfl, rfl, by decide, by decide, value_defaultBankN, value_defaultBankW⟩

end Sys2Proof.Machine
end

section
/-! PROOFS. The family of 30_encoding.md: the request word and the operation map (R45, R49, R50), a program of requests (R52),
and the lines of the assembly text (R52, R53). -/

namespace Sys2Proof

/- The encoder and the decoder (R45, R49). -/

@[simp] theorem encode_decode (w : RequestWord) : encode (decode w) = w := by simp [encode, decode]

/-- Settles O1: an operation is its variant and its operand, and a word is its two fields. -/
theorem encodeAndDecodeAreInverse : Obligations.EncodeAndDecodeAreInverse := ⟨decode_encode, encode_decode⟩

/- The operation map (R49). -/

/-- Under the mask of the map only the field `variant` is left of a word. -/
theorem encode_and_mask (i : Instr) : encode i &&& 0x10000#17 = variantBit i.variant ++ 0#16 := append_and_mask _ _

/-- A row takes a word exactly when it has the mnemonic of the word's operation. -/
theorem opcodeRow_match_iff {r : OpcodeRow} (hr : r ∈ opcodeTable) (w : RequestWord) :
    w &&& r.mask = r.pattern ↔ r.mnemonic = (decode w).mnemonic := by
  obtain ⟨i, rfl⟩ : ∃ i, encode i = w := ⟨_, encode_decode w⟩
  rw [decode_encode]
  simp only [opcodeTable, List.mem_cons, List.not_mem_nil, or_false] at hr
  rcases hr with rfl | rfl
  · rw [encode_and_mask]
    cases i <;> simp [Instr.variant, Instr.mnemonic, variantBit]
  · rw [encode_and_mask]
    cases i <;> simp [Instr.variant, Instr.mnemonic, variantBit]

theorem existsUnique_row_of_mnemonic (i : Instr) : ∃! r, r ∈ opcodeTable ∧ r.mnemonic = i.mnemonic := by
  cases i <;> simp [opcodeTable, Instr.mnemonic, ExistsUnique]

/-- Settles O2: the rows that take a word are those with its operation's mnemonic, and each mnemonic has one row. -/
theorem opcodeRowsPartitionTheRequestWords : Obligations.OpcodeRowsPartitionTheRequestWords := by
  intro w
  refine ⟨?_, fun r hr h => ((opcodeRow_match_iff hr w).mp h).symm, interp_count _ _⟩
  simpa only [and_congr_right_iff.mpr fun hr => opcodeRow_match_iff hr w] using existsUnique_row_of_mnemonic (decode w)

/-- Settles O3, by evaluating the decoder at each word. -/
theorem wordsOfTheSpecDecode : Obligations.WordsOfTheSpecDecode := by
  unfold Obligations.WordsOfTheSpecDecode
  decide

end Sys2Proof

namespace Sys2Proof.Machine

/- The result of one request (R50). -/

theorem driveVelocity_injective (s : State) : Function.Injective fun y => driveVelocity y s :=
  fun _ _ h => congrArg State.velocity h

theorem exec_of_wf {s : State} (h : s.rom.wf = true) (i : Instr) : ∃ y, exec i s = .next (driveVelocity y s) := by
  obtain ⟨y, hy⟩ := interpolate_of_wf h s.numerics i.variant i.count
  exact ⟨y, (exec_eq_next i s _).mpr ⟨h, y, hy, rfl⟩⟩

/-- Settles O4: legal contents give every operation a result, and the state it answers shows which. -/
theorem everyRequestWordHasOneResult : Obligations.EveryRequestWordHasOneResult := by
  intro w s h
  obtain ⟨y, hy⟩ := exec_of_wf h (decode w)
  refine ⟨y, hy, fun z hz => driveVelocity_injective s ?_⟩
  exact Host.Outcome.next.inj (hz.symm.trans hy)

/- The results of a program (R52, R124). -/

/-- The value that an evaluation drives depends on the operation, on the contents and the numerics, and on nothing else. -/
theorem exec_eq_driveVelocity_iff (i : Instr) (s : State) (y : F32) :
    exec i s = .next (driveVelocity y s) ↔
      s.rom.wf = true ∧ interpolate s.numerics (select s.rom i.variant) i.count = some y := by
  simp only [exec_eq_next, (driveVelocity_injective s).eq_iff, exists_eq_right']

theorem exec_result_congr {s t : State} (h : t.config = s.config) {i : Instr} {y : F32} :
    exec i t = .next (driveVelocity y t) ↔ exec i s = .next (driveVelocity y s) := by
  simp only [exec_eq_driveVelocity_iff, State.rom, numerics_eq_of_config_eq h, h]

/-- To present an operation and step drives the value that evaluating it where it stands drives. -/
theorem serve_of_exec {i : Instr} {s : State} {y : F32} (h : exec i s = .next (driveVelocity y s)) :
    serve i s = .next (driveVelocity y (present i s)) := by
  have hstep : serve i s = exec i (present i s) := step_eq_exec (by rw [request_present, decode_encode])
  exact hstep.trans ((exec_result_congr (present_config i s)).mpr h)

theorem respond_cons {i : Instr} {program : List Instr} {s t u : State} {results : List F32}
    (hserve : serve i s = .next t) (hrest : respond program t = some (results, u)) :
    respond (i :: program) s = some (t.velocity :: results, u) := by
  simp only [respond, hserve, hrest]

/-- Settles O32, by induction on the program: a request leaves the configuration, so what it drives and what the requests after
it drive is what they drive from the first state. -/
theorem programResultsAreIndependent : Obligations.ProgramResultsAreIndependent := by
  intro program
  induction program with
  | nil => exact fun s _ => ⟨[], s, rfl, rfl, .nil⟩
  | cons i program ih =>
    intro s hwf
    obtain ⟨y, hy⟩ := exec_of_wf hwf i
    have hconfig : (driveVelocity y (present i s)).config = s.config := present_config i s
    obtain ⟨results, u, hrest, hu, halone⟩ := ih (driveVelocity y (present i s)) (by rwa [State.rom, hconfig])
    exact ⟨y :: results, u, respond_cons (serve_of_exec hy) hrest, hu.trans hconfig,
      .cons hy (halone.imp fun _ _ => (exec_result_congr hconfig).mp)⟩

/- The lines of the assembly text (R52, R53). -/

/-- The word of a literal: the variant's bit above the literal. -/
theorem toNat_encode_literal (v : Variant) {n : Nat} (h : n ≤ 65535) :
    (encode (interp v (BitVec.ofNat 16 n))).toNat = (variantBit v).toNat * 2 ^ 16 + n := by
  have hn : (BitVec.ofNat 16 n).toNat = n := Nat.mod_eq_of_lt (Nat.lt_succ_of_le h)
  rw [encode, toNat_word, interp_variant, interp_count, hn]

theorem assemble_interp {n : Nat} (h : n ≤ 65535) (v : Variant) :
    assemble (.interp v n) = some (interp v (BitVec.ofNat 16 n)) := by simp [assemble, AsmLine.wf, h]

theorem assemble_interpN {n : Nat} (h : n ≤ 65535) : assemble (.interpN n) = some (.interpN (BitVec.ofNat 16 n)) := by
  simp [assemble, AsmLine.wf, h]

theorem assemble_interpW {n : Nat} (h : n ≤ 65535) : assemble (.interpW n) = some (.interpW (BitVec.ofNat 16 n)) := by
  simp [assemble, AsmLine.wf, h]

theorem assemble_eq_none {l : AsmLine} (h : l.wf = false) : assemble l = none := by simp [assemble, h]

/-- Settles O5: a well-formed line is the operation of its variant and its literal, whose word is the variant's bit above the
literal. -/
theorem assemblyLinesExpand : Obligations.AssemblyLinesExpand := by
  constructor
  · intro n h
    rw [assemble_interpN h, assemble_interpW h, assemble_interp h, assemble_interp h]
    exact ⟨⟨_, rfl, toNat_encode_literal .narrowRange h⟩, ⟨_, rfl, toNat_encode_literal .wideRange h⟩, rfl, rfl⟩
  · intro v n h
    have hbeyond : decide (n ≤ 65535) = false := decide_eq_false (Nat.not_le.mpr h)
    exact ⟨assemble_eq_none hbeyond, assemble_eq_none hbeyond, assemble_eq_none hbeyond⟩

end Sys2Proof.Machine
end

section
/-! PROOFS. The family of 40_table_select.md: the variant multiplexer (R60) and the two reads of nodes (R61, R62). -/

namespace Sys2Proof.Machine

/- SELECT (R60). -/

/-- SELECT looks at nothing but the bank of the variant. -/
theorem select_congr {m m' : Memory} {v : Variant} (h : m.bank v = m'.bank v) : select m v = select m' v := by
  cases v
  · exact congrArg (fun b : Bank => Selection.mk b.cnt b.vel 9) h
  · exact congrArg (fun b : Bank => Selection.mk b.cnt b.vel 13) h

/-- What an answered operation has driven is the result over the selected bank. -/
theorem interpolate_of_exec {i : Instr} {s t : State} (h : exec i s = .next t) :
    interpolate s.numerics (select s.rom i.variant) i.count = some t.velocity := by
  obtain ⟨-, y, hy, rfl⟩ := (exec_eq_next i s t).mp h
  exact hy

/-- Two states that agree on the selected bank and the numerics answer an operation with one result. -/
theorem exec_velocity_congr {i : Instr} {s s' t t' : State} (hbank : s.rom.bank i.variant = s'.rom.bank i.variant)
    (hnum : s.numerics = s'.numerics) (h : exec i s = .next t) (h' : exec i s' = .next t') :
    t.velocity = t'.velocity := by
  have hy := interpolate_of_exec h
  rw [hnum, select_congr hbank, interpolate_of_exec h'] at hy
  exact (Option.some.inj hy).symm

/-- Settles O20: the selection is all of the bank, and a result is a function of the selection and the numerics. -/
theorem resultDependsOnlyOnTheSelectedBank : Obligations.ResultDependsOnlyOnTheSelectedBank :=
  ⟨fun _ => ⟨rfl, rfl⟩, ⟨rfl, rfl⟩, fun count _ _ _ _ => exec_velocity_congr (i := .interpN count),
    fun count _ _ _ _ => exec_velocity_congr (i := .interpW count)⟩

/- The reads of nodes (R61, R62), in terms of the read primitives. -/

theorem readNode_select_eq_some (m : Memory) (v : Variant) (i : Nat) (k : Node) :
    readNode (select m v) i = some k ↔ readCnt m v i = some k.c ∧ readVel m v i = some k.v := readNode_eq_some _ _ _

/-- R30(b), read by index. -/
theorem readCnt_lt_of_wf {m : Memory} (h : m.wf = true) {v : Variant} {i : Nat} {p q : Count}
    (hp : readCnt m v i = some p) (hq : readCnt m v (i + 1) = some q) : p.toNat < q.toNat := by
  rw [readCnt_eq] at hp hq
  obtain ⟨-, hincrease, -, -⟩ := (Bank.wf_iff _ _).mp (Memory.wf_bank h v)
  exact Bank.cnt_lt hincrease (Nat.lt_succ_self i) hp hq

/-- R30(c), read by index. -/
theorem readVel_le_of_wf {m : Memory} (h : m.wf = true) {v : Variant} {i : Nat} {p q : F32}
    (hp : readVel m v i = some p) (hq : readVel m v (i + 1) = some q) : Binary32.le p q = true := by
  rw [readVel_eq] at hp hq
  obtain ⟨-, -, hrise, -⟩ := (Bank.wf_iff _ _).mp (Memory.wf_bank h v)
  exact Bank.vel_le hrise (Nat.lt_succ_self i) hp hq

/-- Settles O21: legal contents have both nodes of a segment, and R30 orders their counts and their velocities. -/
theorem read2ReturnsTheBracketingNodes : Obligations.Read2ReturnsTheBracketingNodes := by
  refine ⟨fun m v i hwf hi => ?_, by decide⟩
  have hn := two_le_nodes v
  obtain ⟨lower, upper, hread⟩ := read2_of_wf hwf v (i := i) (by omega)
  obtain ⟨hlower, hupper⟩ := (read2_eq_some _ _ _ _).mp hread
  obtain ⟨hc0, hv0⟩ := (readNode_select_eq_some _ _ _ _).mp hlower
  obtain ⟨hc1, hv1⟩ := (readNode_select_eq_some _ _ _ _).mp hupper
  exact ⟨lower.c, lower.v, upper.c, upper.v, hread, hc0, hv0, hc1, hv1, readCnt_lt_of_wf hwf hc0 hc1,
    readVel_le_of_wf hwf hv0 hv1⟩

/-- Settles O22: legal contents have both end nodes, and END reads them at 0 and at the last index. -/
theorem endNodesAreTheFirstAndTheLast : Obligations.EndNodesAreTheFirstAndTheLast := by
  refine ⟨fun m v hwf => ?_, by decide, by decide⟩
  obtain ⟨first, last, hends⟩ := readEnds_of_wf hwf v
  obtain ⟨hfirst, hlast⟩ := (readEnds_eq_some _ _ _).mp hends
  rw [select_n] at hlast
  obtain ⟨hc0, hv0⟩ := (readNode_select_eq_some _ _ _ _).mp hfirst
  obtain ⟨hcl, hvl⟩ := (readNode_select_eq_some _ _ _ _).mp hlast
  exact ⟨first.c, first.v, last.c, last.v, hends, hc0, hv0, hcl, hvl⟩

end Sys2Proof.Machine
end

section
/-! PROOFS. The family of 41_segment_search.md: CLASSIFY (R70), BRACKET (R71, R72), the comparison of counts by their widenings
(R73), and the identities of `NUM` from which the lower node of a segment is exact (R72). -/

namespace Sys2Proof.Machine

/-- R30(b), for the selected bank. -/
theorem countsIncrease_of_wf {m : Memory} (h : m.wf = true) (v : Variant) : (m.bank v).countsIncrease = true := by
  obtain ⟨-, hincrease, -, -⟩ := (Bank.wf_iff _ _).mp (Memory.wf_bank h v)
  exact hincrease

/- CLASSIFY (R70). -/

/-- The three classes by their counts when the ends are in order: the two tests then exclude each other. -/
theorem classify_iff_of_lt {first last : Count} (h : first.toNat < last.toNat) (count : Count) :
    (classify count first last = .low ↔ count.toNat ≤ first.toNat) ∧
    (classify count first last = .high ↔ last.toNat ≤ count.toNat) ∧
    (classify count first last = .seg ↔ first.toNat < count.toNat ∧ count.toNat < last.toNat) := by
  refine ⟨classify_eq_low _ _ _, ?_, classify_eq_seg _ _ _⟩
  rw [classify_eq_high]
  omega

/-- R30(b): the count of the last node is above that of the first. -/
theorem first_lt_last_of_wf {m : Memory} (h : m.wf = true) {v : Variant} {first last : Count}
    (hfirst : readCnt m v 0 = some first) (hlast : readCnt m v (nodes v - 1) = some last) : first.toNat < last.toNat := by
  rw [readCnt_eq] at hfirst hlast
  have hn := two_le_nodes v
  exact Bank.cnt_lt (countsIncrease_of_wf h v) (by omega) hfirst hlast

/-- Settles O24: the end counts of legal contents are in order, and so are 409 and 3686. -/
theorem classesAreExclusive : Obligations.ClassesAreExclusive := by
  refine ⟨fun m v count first last hwf hfirst hlast => classify_iff_of_lt (first_lt_last_of_wf hwf hfirst hlast) count,
    fun count => ?_⟩
  obtain ⟨hlow, hhigh, hseg⟩ := classify_iff_of_lt (first := 409#16) (last := 3686#16) (by decide) count
  exact ⟨hlow, hhigh, hseg.trans (and_congr Iff.rfl Nat.lt_succ_iff)⟩

/- BRACKET (R71, R72). -/

/-- The counts no greater than a count that segment `i` holds are those of the nodes up to `i`. -/
theorem cnt_le_iff_of_holds {b : Bank} (hb : b.countsIncrease = true) {count : Count} {i : Nat}
    (hi : holds b.cnt count i = true) {k : Nat} {c : Count} (hc : b.cnt[k]? = some c) :
    c.toNat ≤ count.toNat ↔ k ≤ i := by
  obtain ⟨lower, upper, hlower, hupper, hge, hlt⟩ := (holds_iff _ _ _).mp hi
  constructor
  · intro hle
    by_contra hki
    rcases Nat.eq_or_lt_of_le (Nat.lt_of_not_le hki) with rfl | hik
    · cases hupper.symm.trans hc
      omega
    · have := Bank.cnt_lt hb hik hupper hc
      omega
  · intro hki
    rcases Nat.eq_or_lt_of_le hki with rfl | hki
    · cases hlower.symm.trans hc
      exact hge
    · have := Bank.cnt_lt hb hki hc hlower
      omega

/-- A property that the first `n` elements of a list have, and no other, is counted `n` times. -/
theorem countP_eq_of_getElem_iff {α : Type} {p : α → Bool} {l : List α} {n : Nat} (hn : n ≤ l.length)
    (h : ∀ (k : Nat) (a : α), l[k]? = some a → (p a = true ↔ k < n)) : l.countP p = n := by
  have htake : (l.take n).countP p = (l.take n).length := by
    refine List.countP_eq_length.mpr fun a ha => ?_
    obtain ⟨k, hk⟩ := List.mem_iff_getElem?.mp ha
    rw [List.getElem?_take, Option.ite_none_right_eq_some] at hk
    exact (h k a hk.2).mpr hk.1
  have hdrop : (l.drop n).countP p = 0 := by
    refine List.countP_eq_zero.mpr fun a ha => ?_
    obtain ⟨k, hk⟩ := List.mem_iff_getElem?.mp ha
    rw [List.getElem?_drop] at hk
    rw [h _ a hk]
    omega
  rw [← List.take_append_drop n l, List.countP_append, htake, hdrop, List.length_take, Nat.min_eq_left hn, Nat.add_zero]

/-- Over legal contents BRACKET answers exactly the segment that holds the count. -/
theorem bracket_eq_some_iff {m : Memory} (h : m.wf = true) {v : Variant} {count : Count} {i : Nat} :
    bracket (select m v) count = some i ↔ i < nodes v - 1 ∧ holds (m.bank v).cnt count i = true := by
  rw [← select_n m v, ← select_c m v]
  refine ⟨bracket_holds, fun ⟨hi, hholds⟩ => ?_⟩
  obtain ⟨j, hj⟩ := bracket_isSome hi hholds
  have hjholds := (bracket_holds hj).2
  rw [select_c] at hholds hjholds
  rw [hj, holds_unique (countsIncrease_of_wf h v) hholds hjholds]

/-- Settles O25: some segment below the last node holds the count, and each description picks out the nodes up to its lower
end. -/
theorem bracketIsTheUniqueSegment : Obligations.BracketIsTheUniqueSegment := by
  refine ⟨fun m v count first last hwf hfirst hlast hlow hhigh => ?_, by decide, by decide, by decide, by decide⟩
  obtain ⟨⟨hlength, -⟩, hincrease, -, -⟩ := (Bank.wf_iff _ _).mp (Memory.wf_bank hwf v)
  simp only [readCnt_eq, select_c] at hfirst hlast ⊢
  obtain ⟨i, hi, hholds⟩ := holds_below hfirst hlow.le hlast hhigh
  refine ⟨i, (bracket_eq_some_iff hwf).mpr ⟨hi, hholds⟩, by omega, (holds_iff _ _ _).mp hholds, ?unique, ?greatest, ?number⟩
  case unique =>
    intro j d0 d1 hd0 hd1 hge hlt
    exact holds_unique hincrease ((holds_iff _ _ _).mpr ⟨d0, d1, hd0, hd1, hge, hlt⟩) hholds
  case greatest =>
    intro k c _ hc hle
    exact (cnt_le_iff_of_holds hincrease hholds hc).mp hle
  case number =>
    refine countP_eq_of_getElem_iff (by omega) fun k c hc => ?_
    rw [decide_eq_true_iff, cnt_le_iff_of_holds hincrease hholds hc, Nat.lt_succ_iff]

/-- Settles O26: the node's count is no greater than itself, and the next node's count is above it. -/
theorem interiorNodeOpensItsSegment : Obligations.InteriorNodeOpensItsSegment := by
  intro m v k c hwf _ hkn hc
  obtain ⟨lower, upper, hread⟩ := read2_of_wf hwf v (i := k) (by omega)
  obtain ⟨hupper, -⟩ := (readNode_select_eq_some _ _ _ _).mp ((read2_eq_some _ _ _ _).mp hread).2
  have hlt := readCnt_lt_of_wf hwf hc hupper
  rw [readCnt_eq] at hc hupper
  exact (bracket_eq_some_iff hwf).mpr ⟨by omega, (holds_iff _ _ _).mpr ⟨c, upper.c, hc, hupper, le_rfl, hlt⟩⟩

/- Counts and their widenings (R73). -/

/-- Settles O27: a widening is finite without a sign, and its value is the count. -/
theorem wideningKeepsTheOrder : Obligations.WideningKeepsTheOrder := by
  intro a b
  rw [(Binary32.finiteNotNegative_cvt a).le_iff (Binary32.finiteNotNegative_cvt b), Binary32.absUnits_cvt,
    Binary32.absUnits_cvt, Nat.mul_le_mul_right_iff (Nat.two_pow_pos 149)]

end Sys2Proof.Machine

namespace Sys2Proof.Machine.Binary32

/- The four identities of R72 for the default numerics. -/

@[simp] theorem units_negate (a : F32) : units (negate a) = -units a := by
  rcases hs : signBit a with _ | _ <;> simp [units, hs]

@[simp] theorem natAbs_units (a : F32) : (units a).natAbs = absUnits a := by
  rcases hs : signBit a with _ | _ <;> simp [units, hs]

@[simp] theorem absUnits_zero : absUnits 0x00000000#32 = 0 := by decide
@[simp] theorem units_zero : units 0x00000000#32 = 0 := by decide

theorem finiteNotNegative_zero : FiniteNotNegative 0x00000000#32 := by constructor <;> decide

theorem isZero_iff_absUnits (a : F32) : isZero a = true ↔ absUnits a = 0 := by
  have hle := absUnits_le_iff a 0x00000000#32
  have hzero : magnitude 0x00000000#32 = 0 := by decide
  rw [absUnits_zero, hzero, Nat.le_zero, Nat.le_zero] at hle
  rw [isZero, decide_eq_true_iff, hle]

/-- The only patterns of value zero are +0 and -0. -/
theorem eq_zero_of_units_eq_zero {a : F32} (h : units a = 0) : a = 0x00000000#32 ∨ a = 0x80000000#32 := by
  have habs : absUnits a = 0 := by rw [← natAbs_units, h, Int.natAbs_zero]
  have hmag : magnitude a = 0 := by simpa [isZero] using (isZero_iff_absUnits a).mpr habs
  rcases hs : signBit a with _ | _
  · exact .inl (eq_of_signBit_magnitude hs hmag)
  · exact .inr (eq_of_signBit_magnitude hs hmag)

/-- A value other than zero has the sign of its pattern. -/
theorem decide_units_neg {a : F32} (h : units a ≠ 0) : decide (units a < 0) = signBit a := by
  rcases hs : signBit a with _ | _
  · have hu : units a = absUnits a := by simp [units, hs]
    exact decide_eq_false (by omega)
  · have hu : units a = -absUnits a := by simp [units, hs]
    exact decide_eq_true (by omega)

theorem round_zero {d : Nat} (hd : 0 < d) : round false 0 d = 0x00000000#32 := by
  have h := round_absUnits finiteNotNegative_zero.finite hd
  rwa [finiteNotNegative_zero.sign, absUnits_zero, Nat.zero_mul] at h

theorem sub_self_of_isFinite {a : F32} (h : isFinite a = true) : sub a a = 0x00000000#32 := by
  rw [sub, addFor_of_isFinite _ h (isFinite_negate h), units_negate, if_pos (add_neg_cancel _), signBit_negate,
    Bool.and_not_self]
  decide

theorem zero_mul_of_finiteNotNegative {b : F32} (hb : FiniteNotNegative b) : mul 0x00000000#32 b = 0x00000000#32 := by
  rw [mul_of_isFinite finiteNotNegative_zero.finite hb.finite,
    finiteNotNegative_zero.notNegative.signOfProduct_eq hb.notNegative, absUnits_zero, Nat.zero_mul,
    round_zero (Nat.two_pow_pos _)]

/-- What is greater than zero is no NaN, has sign bit 0 and is no zero; it may be the infinity. -/
theorem notNegative_of_zero_lt {d : F32} (h : lt 0x00000000#32 d = true) : NotNegative d ∧ isZero d = false := by
  have hkey : orderKey 0x00000000#32 = 0 := by decide
  simp only [lt, Bool.and_eq_true, Bool.not_eq_true', decide_eq_true_eq, hkey] at h
  obtain ⟨⟨-, hnan⟩, hpos⟩ := h
  rcases hs : signBit d with _ | _
  · have hmag : 0 < magnitude d := by simpa [orderKey, hs] using hpos
    exact ⟨⟨hnan, hs⟩, decide_eq_false hmag.ne'⟩
  · rw [orderKey, hs, if_pos rfl] at hpos
    omega

theorem zero_div_of_zero_lt {d : F32} (h : lt 0x00000000#32 d = true) : div 0x00000000#32 d = 0x00000000#32 := by
  obtain ⟨hd, hz⟩ := notNegative_of_zero_lt h
  have hs := finiteNotNegative_zero.notNegative.signOfProduct_eq hd
  rcases hi : isInfinite d with _ | _
  · have hpos : 0 < absUnits d := by
      rw [Nat.pos_iff_ne_zero, ne_eq, ← isZero_iff_absUnits, hz]
      exact Bool.false_ne_true
    rw [div_of_isFinite finiteNotNegative_zero.finite (isFinite_of_not_nan_of_not_infinite hd.not_nan hi) hz, hs,
      absUnits_zero, Nat.zero_mul, round_zero hpos]
  · have hdiv : div 0x00000000#32 d = pack false 0 := by
      simp [div, isNaN_of_isFinite, isInfinite_of_isFinite, finiteNotNegative_zero.finite, hd.not_nan, hi, hs]
    rw [hdiv]
    decide

theorem add_zero_of_ne_negZero {a : F32} (h : isFinite a = true) (hne : a ≠ 0x80000000#32) :
    add a 0x00000000#32 = a := by
  rw [add, addFor_of_isFinite _ h finiteNotNegative_zero.finite, units_zero, add_zero]
  split
  · rename_i hzero
    rw [(eq_zero_of_units_eq_zero hzero).resolve_right hne]
    decide
  · rename_i hnonzero
    rw [decide_units_neg hnonzero, natAbs_units]
    simpa using round_absUnits h Nat.one_pos

end Sys2Proof.Machine.Binary32

namespace Sys2Proof.Machine

/-- Settles O37: an exact difference, product or quotient of zero is +0 here, and a finite sum is rounded to itself. -/
theorem defaultNumericsHaveTheNodeIdentities : Obligations.DefaultNumericsHaveTheNodeIdentities where
  sub_self _ := Binary32.sub_self_of_isFinite
  mul_zero _ hfinite hsign := Binary32.zero_mul_of_finiteNotNegative ⟨hfinite, hsign⟩
  zero_div _ := Binary32.zero_div_of_zero_lt
  add_zero _ := Binary32.add_zero_of_ne_negZero

/-- LERP (R82) as one term. -/
theorem lerp_eq (num : Numerics) (count c0 : Count) (v0 : F32) (c1 : Count) (v1 : F32) :
    lerp num count c0 v0 c1 v1 =
      num.add v0 (num.div (num.mul (num.sub (num.cvt count) (num.cvt c0)) (num.sub v1 v0))
        (num.sub (num.cvt c1) (num.cvt c0))) := rfl

/-- Settles O38: the offset is `x - x = +0`, and the product, the quotient and the sum hand `v0` on, one identity each. -/
theorem lowerNodeIsExactForAnyNumerics : Obligations.LowerNodeIsExactForAnyNumerics := by
  intro num c0 c1 v0 v1 hnum hc0 hdiff hsign hwidth hv0 hne
  rw [lerp_eq, hnum.sub_self _ hc0, hnum.mul_zero _ hdiff hsign, hnum.zero_div _ hwidth, hnum.add_zero _ hv0 hne]

end Sys2Proof.Machine
end

section
/-! PROOFS. The family of 42_interpolate.md, its rounding function: to nearest, ties to even, with overflow and gradual underflow
where IEEE 754 has them (R85). -/

namespace Sys2Proof.Machine.Binary32

/- The nearest integer. -/

/-- The nearest integer is off by at most a half, and by exactly a half only if it is the even one of two. -/
theorem nearestEven_error (n : Nat) {d : Nat} (hd : 0 < d) :
    |(nearestEven n d : ℚ) - n / d| ≤ 1 / 2 ∧
      (|(nearestEven n d : ℚ) - n / d| = 1 / 2 → nearestEven n d % 2 = 0) := by
  have hdq : (0 : ℚ) < d := Nat.cast_pos.mpr hd
  have hn : (n : ℚ) = d * (n / d : ℕ) + (n % d : ℕ) := by exact_mod_cast (Nat.div_add_mod n d).symm
  have hx : (n : ℚ) / d = (n / d : ℕ) + (n % d : ℕ) / d := by rw [hn]; field_simp
  have hlt : ((n % d : ℕ) : ℚ) / d < 1 := by
    rw [div_lt_one hdq]
    exact_mod_cast Nat.mod_lt n hd
  rcases nearestEven_cases n d with ⟨he, hc⟩ | ⟨he, hc⟩
  · have herror : |(nearestEven n d : ℚ) - n / d| = (n % d : ℕ) / d := by
      rw [he, hx, sub_add_cancel_left, abs_neg, abs_of_nonneg (by positivity)]
    rw [herror, he, div_le_iff₀ hdq, div_eq_iff hdq.ne']
    rcases hc with hc | ⟨hc, heven⟩
    · have hcq : 2 * ((n % d : ℕ) : ℚ) < d := by exact_mod_cast hc
      exact ⟨by linarith, fun h => by linarith⟩
    · have hcq : 2 * ((n % d : ℕ) : ℚ) = d := by exact_mod_cast hc
      exact ⟨by linarith, fun _ => heven⟩
  · have herror : |(nearestEven n d : ℚ) - n / d| = 1 - (n % d : ℕ) / d := by
      rw [he, hx, Nat.cast_succ, add_sub_add_left_eq_sub, abs_of_pos (by linarith)]
    rw [herror, he, sub_le_comm, sub_eq_iff_eq_add, le_div_iff₀ hdq]
    rcases hc with hc | ⟨hc, hodd⟩
    · have hcq : (d : ℚ) < 2 * (n % d : ℕ) := by exact_mod_cast hc
      have hhalf : 1 / 2 < ((n % d : ℕ) : ℚ) / d := by rw [lt_div_iff₀ hdq]; linarith
      exact ⟨by linarith, fun h => by linarith⟩
    · have hcq : 2 * ((n % d : ℕ) : ℚ) = d := by exact_mod_cast hc
      exact ⟨by linarith, fun _ => by omega⟩

/-- No integer is nearer, and one that is as near is the odd one of two. -/
theorem nearestEven_nearest (n : Nat) {d : Nat} (hd : 0 < d) (j : Nat) :
    |(nearestEven n d : ℚ) - n / d| ≤ |(j : ℚ) - n / d| ∧
      (|(nearestEven n d : ℚ) - n / d| = |(j : ℚ) - n / d| → j ≠ nearestEven n d → nearestEven n d % 2 = 0) := by
  obtain ⟨hhalf, htie⟩ := nearestEven_error n hd
  rcases eq_or_ne j (nearestEven n d) with rfl | hne
  · exact ⟨le_rfl, fun _ h => absurd rfl h⟩
  · have hone : (1 : ℚ) ≤ |(j : ℚ) - nearestEven n d| := by
      exact_mod_cast Int.one_le_abs (sub_ne_zero.mpr (Int.ofNat_inj.not.mpr hne))
    have htriangle := abs_sub_le (j : ℚ) (n / d) (nearestEven n d)
    rw [abs_sub_comm ((n : ℚ) / d)] at htriangle
    exact ⟨by linarith, fun h _ => htie (by linarith)⟩

/- What `round` answers: a significand and a shift. -/

/-- The value of a pattern in the encoding that `round` writes: a subnormal, a normal number, or the carry to 2^24. -/
theorem absUnits_of_significand {a : F32} {k m : Nat} (h : magnitude a = k * 2 ^ 23 + m) (hlow : k = 0 ∨ 2 ^ 23 ≤ m)
    (hhigh : m ≤ 2 ^ 24) : absUnits a = m * 2 ^ k := by
  rcases Nat.lt_or_ge m (2 ^ 23) with hsub | hnormal
  · have hk : k = 0 := by omega
    have hm := magnitude_eq a
    have hf := fraction_lt a
    rw [absUnits, if_pos (by omega), hk, pow_zero, mul_one]
    omega
  · rcases Nat.eq_or_lt_of_le hhigh with heq | hlt
    · have hcarry : magnitude a = (k + 1) * 2 ^ 23 + 2 ^ 23 := by rw [h, heq]; ring
      rw [absUnits_of_magnitude_eq hcarry le_rfl (by norm_num), heq]
      ring
    · exact absUnits_of_magnitude_eq h hnormal hlt

/-- The significand that `round` keeps of `n / d`. -/
def significandOf (n d : Nat) : Nat := nearestEven n (d * 2 ^ shiftOf n d)

theorem magnitude_round_of_isFinite {negative : Bool} {n d : Nat} (h : isFinite (round negative n d) = true) :
    magnitude (round negative n d) = shiftOf n d * 2 ^ 23 + significandOf n d := by
  rw [isFinite, decide_eq_true_iff, magnitude_round_eq] at h
  rw [magnitude_round_eq, min_eq_left (by omega)]
  rfl

theorem absUnits_round {negative : Bool} {n d : Nat} (hd : 0 < d) (h : isFinite (round negative n d) = true) :
    absUnits (round negative n d) = significandOf n d * 2 ^ shiftOf n d := by
  refine absUnits_of_significand (magnitude_round_of_isFinite h) ?_ (nearestEven_shift_le hd)
  rcases Nat.eq_zero_or_pos (shiftOf n d) with hk | hk
  · exact .inl hk
  · exact .inr (le_nearestEven_shift hd hk)

/-- The last fraction bit is that of the significand. -/
theorem fraction_round_mod_two {negative : Bool} {n d : Nat} (h : isFinite (round negative n d) = true) :
    fraction (round negative n d) % 2 = significandOf n d % 2 := by
  have hm := magnitude_round_of_isFinite h
  rw [magnitude_eq] at hm
  omega

/-- A distance from `n / d` on the grid of a shift is that of the integers from the shifted fraction. -/
theorem abs_shifted_sub (m n : Nat) {d : Nat} (hd : 0 < d) (k : Nat) :
    |((m * 2 ^ k : ℕ) : ℚ) - n / d| = |(m : ℚ) - n / (d * 2 ^ k : ℕ)| * 2 ^ k := by
  have hdq : (d : ℚ) ≠ 0 := Nat.cast_ne_zero.mpr hd.ne'
  have hsub : ((m * 2 ^ k : ℕ) : ℚ) - n / d = ((m : ℚ) - n / (d * 2 ^ k : ℕ)) * 2 ^ k := by
    push_cast
    field_simp
  rw [hsub, abs_mul, abs_of_pos (show (0 : ℚ) < 2 ^ k by positivity)]

/-- Nothing on the grid of the shift is nearer than the significand. -/
theorem significandOf_nearest (n : Nat) {d : Nat} (hd : 0 < d) (j : Nat) :
    |((significandOf n d * 2 ^ shiftOf n d : ℕ) : ℚ) - n / d| ≤ |((j * 2 ^ shiftOf n d : ℕ) : ℚ) - n / d| ∧
      (|((significandOf n d * 2 ^ shiftOf n d : ℕ) : ℚ) - n / d| = |((j * 2 ^ shiftOf n d : ℕ) : ℚ) - n / d| →
        j ≠ significandOf n d → significandOf n d % 2 = 0) := by
  have hscale : (0 : ℚ) < 2 ^ shiftOf n d := by positivity
  rw [abs_shifted_sub _ n hd, abs_shifted_sub _ n hd, mul_le_mul_iff_left₀ hscale, mul_left_inj' hscale.ne']
  exact nearestEven_nearest n (Nat.mul_pos hd (Nat.two_pow_pos _)) j

/-- A value is on the grid of a shift, or it is below the binade in which that shift is made. -/
theorem absUnits_eq_mul_or_pos_and_lt (b : F32) (k : Nat) :
    (∃ j, absUnits b = j * 2 ^ k) ∨ (0 < k ∧ absUnits b < 2 ^ (k + 23)) := by
  rcases Nat.eq_zero_or_pos k with rfl | hk
  · exact .inl ⟨absUnits b, by rw [pow_zero, mul_one]⟩
  have hf := fraction_lt b
  rw [absUnits]
  split
  · exact .inr ⟨hk, hf.trans_le (Nat.pow_le_pow_right (by decide) (Nat.le_add_left _ _))⟩
  · rcases Nat.lt_or_ge (exponent b - 1) k with hlt | hge
    · refine .inr ⟨hk, ?_⟩
      calc (2 ^ 23 + fraction b) * 2 ^ (exponent b - 1)
          < 2 ^ 24 * 2 ^ (exponent b - 1) := Nat.mul_lt_mul_of_pos_right (by omega) (Nat.two_pow_pos _)
        _ = 2 ^ (exponent b - 1 + 24) := by rw [pow_add, mul_comm]
        _ ≤ 2 ^ (k + 23) := Nat.pow_le_pow_right (by decide) (by omega)
    · left
      refine ⟨(2 ^ 23 + fraction b) * 2 ^ (exponent b - 1 - k), ?_⟩
      rw [mul_assoc, ← pow_add, Nat.sub_add_cancel hge]

/-- A value below the binade of `n / d` is further from it than the significand is: the bottom of the binade lies between. -/
theorem significandOf_nearer {n d : Nat} (hd : 0 < d) (hk : 0 < shiftOf n d) {u : Nat} (hu : u < 2 ^ (shiftOf n d + 23)) :
    |((significandOf n d * 2 ^ shiftOf n d : ℕ) : ℚ) - n / d| < |(u : ℚ) - n / d| := by
  have hbottom : ((2 ^ (shiftOf n d + 23) : ℕ) : ℚ) ≤ n / d := (Nat.cast_le.mpr (shift_le_div hk)).trans Nat.cast_div_le
  have huq : (u : ℚ) < (2 ^ (shiftOf n d + 23) : ℕ) := Nat.cast_lt.mpr hu
  refine (significandOf_nearest n hd (2 ^ 23)).1.trans_lt ?_
  rw [← pow_add, add_comm 23, abs_of_nonpos (by linarith), abs_of_neg (by linarith)]
  linarith

/-- R85: a finite result of `round` is as near to `n / d` as any value of the format, and has an even fraction when another is as
near. -/
theorem round_nearest {negative : Bool} {n d : Nat} (hd : 0 < d) (h : isFinite (round negative n d) = true) (b : F32) :
    |(absUnits (round negative n d) : ℚ) - n / d| ≤ |(absUnits b : ℚ) - n / d| ∧
      (|(absUnits (round negative n d) : ℚ) - n / d| = |(absUnits b : ℚ) - n / d| →
        absUnits b ≠ absUnits (round negative n d) → fraction (round negative n d) % 2 = 0) := by
  rw [fraction_round_mod_two h, absUnits_round hd h]
  rcases absUnits_eq_mul_or_pos_and_lt b (shiftOf n d) with ⟨j, hj⟩ | ⟨hk, hlt⟩
  · obtain ⟨hle, htie⟩ := significandOf_nearest n hd j
    rw [hj]
    exact ⟨hle, fun heq hne => htie heq fun hjm => hne (by rw [hjm])⟩
  · have hnearer := significandOf_nearer hd hk hlt
    exact ⟨hnearer.le, fun heq => absurd heq hnearer.ne⟩

/- Overflow. -/

/-- Half a unit in the last place above the largest finite value, in units (00_scope.md section 5.1). -/
def overflowThreshold : Nat := (2 ^ 25 - 1) * 2 ^ 252

theorem overflowThreshold_lt : overflowThreshold < 2 ^ (254 + 23) := by
  rw [overflowThreshold, pow_add]
  norm_num

theorem roundedMagnitude_lt_of_lt_threshold {n d : Nat} (hd : 0 < d) (h : n < overflowThreshold * d) :
    roundedMagnitude n d < infinityMagnitude := by
  have hquotient : n / d < 2 ^ (254 + 23) := ((Nat.div_lt_iff_lt_mul hd).mpr h).trans overflowThreshold_lt
  have hshift : shiftOf n d ≤ 253 := by
    by_contra hlarge
    have hbottom := (shift_le_div (n := n) (d := d) (by omega)).trans_lt hquotient
    have := (Nat.pow_lt_pow_iff_right (by decide)).mp hbottom
    omega
  have hsignificand := nearestEven_shift_le (n := n) hd
  rw [roundedMagnitude, infinityMagnitude]
  rcases Nat.eq_or_lt_of_le hshift with hk | hk
  · have hbelow : nearestEven n (d * 2 ^ 253) ≤ 2 ^ 24 - 1 := by
      refine (nearestEven_le_iff (Nat.mul_pos hd (Nat.two_pow_pos _))).mpr (.inl ?_)
      calc 2 * n < 2 * (overflowThreshold * d) := Nat.mul_lt_mul_of_pos_left h Nat.two_pos
        _ = (2 * (2 ^ 24 - 1) + 1) * (d * 2 ^ 253) := by rw [overflowThreshold]; ring
    rw [hk]
    omega
  · omega

theorem infinityMagnitude_le_roundedMagnitude {n d : Nat} (hd : 0 < d) (h : overflowThreshold * d ≤ n) :
    infinityMagnitude ≤ roundedMagnitude n d := by
  have hthreshold : roundedMagnitude overflowThreshold 1 = infinityMagnitude := by decide
  rw [← hthreshold]
  exact roundedMagnitude_mono Nat.one_pos hd (by omega)

theorem isFinite_round_iff (negative : Bool) (n : Nat) {d : Nat} (hd : 0 < d) :
    isFinite (round negative n d) = true ↔ n < overflowThreshold * d := by
  rw [isFinite, decide_eq_true_iff, magnitude_round_eq]
  constructor
  · intro hlt
    by_contra hge
    have := infinityMagnitude_le_roundedMagnitude hd (Nat.le_of_not_lt hge)
    omega
  · intro hlt
    have := roundedMagnitude_lt_of_lt_threshold hd hlt
    omega

theorem isInfinite_round_iff (negative : Bool) (n : Nat) {d : Nat} (hd : 0 < d) :
    isInfinite (round negative n d) = true ↔ overflowThreshold * d ≤ n := by
  rw [← not_lt, ← isFinite_round_iff negative n hd, isInfinite, isFinite, decide_eq_true_iff, decide_eq_true_iff,
    magnitude_round_eq]
  omega

end Sys2Proof.Machine.Binary32

namespace Sys2Proof.Machine

/-- Settles O33: the significand is the nearest integer on the grid of its shift, and no value off that grid is as near. -/
theorem roundingIsNearestTiesToEven : Obligations.RoundingIsNearestTiesToEven := by
  intro negative n d hd
  exact ⟨Binary32.signBit_round _ _ _, Binary32.isNaN_round _ _ _, Binary32.isInfinite_round_iff negative n hd,
    fun hfinite b _ => Binary32.round_nearest hd hfinite b⟩

end Sys2Proof.Machine
end

section
/-! PROOFS. The family of 42_interpolate.md, its operations: each of the four is one rounding of the exact result (00_scope.md
section 5.3, R85), and widenings and count differences are exact (R86, R87). -/

namespace Sys2Proof.Machine

open Binary32 (FiniteNotNegative)

/- The value of a pattern. -/

theorem abs_value (a : F32) : |value a| = (Binary32.absUnits a : ℚ) / 2 ^ 149 := by
  rw [value, abs_div, abs_of_pos (show (0 : ℚ) < 2 ^ 149 by positivity), ← Int.cast_abs, Int.abs_eq_natAbs,
    Binary32.natAbs_units, Int.cast_natCast]

theorem value_add_value (a b : F32) : value a + value b = ((Binary32.units a + Binary32.units b : ℤ) : ℚ) / 2 ^ 149 := by
  rw [value, value, Int.cast_add, add_div]

@[simp] theorem value_negate (a : F32) : value (Binary32.negate a) = -value a := by
  simp only [value, Binary32.units_negate, Int.cast_neg, neg_div]

/-- A value is its sign and its size. -/
theorem value_eq_sign_abs (a : F32) : value a = if Binary32.signBit a then -|value a| else |value a| := by
  rw [abs_value, value, Binary32.units]
  split <;> simp [neg_div]

/-- Values of one size are equal or opposite. -/
theorem value_eq_or_eq_neg {a b : F32} (h : Binary32.absUnits a = Binary32.absUnits b) :
    value a = value b ∨ value a = -value b := by
  rw [← abs_eq_abs, abs_value, abs_value, h]

/-- For a value that is not zero the sign bit is its sign. -/
theorem signBit_eq_of_value_ne_zero {a : F32} (h : value a ≠ 0) : Binary32.signBit a = decide (value a < 0) := by
  have hpos := abs_pos.mpr h
  have ha := value_eq_sign_abs a
  rcases hs : Binary32.signBit a with _ | _ <;> simp only [hs, if_true, if_false, Bool.false_eq_true] at ha
  · exact (decide_eq_false (by linarith)).symm
  · exact (decide_eq_true (by linarith)).symm

/- `round` as `f32` of a rational number (R85). -/

/-- What it takes for `round negative n d` to be asked for `f32` of `x`: the fraction is the size of `x` in units, and the sign
is that of `x` unless `x` is 0. -/
structure FractionOf (negative : Bool) (n d : Nat) (x : ℚ) : Prop where
  pos : 0 < d
  abs_eq : |x| = (n : ℚ) / d / 2 ^ 149
  sign : x ≠ 0 → negative = decide (x < 0)

theorem FractionOf.eq_sign_abs {negative : Bool} {n d : Nat} {x : ℚ} (h : FractionOf negative n d x) :
    x = if negative then -|x| else |x| := by
  rcases eq_or_ne x 0 with rfl | hx
  · simp
  · rw [h.sign hx]
    split
    · rw [abs_of_neg (of_decide_eq_true ‹_›), neg_neg]
    · rw [abs_of_nonneg (not_lt.mp (of_decide_eq_false (Bool.eq_false_iff.mpr ‹_›)))]

/-- The result is on the same side of zero as `x`, so its distance from `x` is that of the sizes. -/
theorem FractionOf.abs_value_sub {negative : Bool} {n d : Nat} {x : ℚ} (h : FractionOf negative n d x) :
    |value (Binary32.round negative n d) - x| = |(|value (Binary32.round negative n d)| - |x|)| := by
  have hr := value_eq_sign_abs (Binary32.round negative n d)
  have hx := h.eq_sign_abs
  rw [Binary32.signBit_round] at hr
  split at hr
  · rw [if_pos ‹_›] at hx
    conv_lhs => rw [hr, hx]
    rw [neg_sub_neg, abs_sub_comm]
  · rw [if_neg ‹_›] at hx
    conv_lhs => rw [hr, hx]

/-- The distance of the size of a pattern from that of `x`, in units. -/
theorem FractionOf.abs_abs_sub {negative : Bool} {n d : Nat} {x : ℚ} (h : FractionOf negative n d x) (c : F32) :
    |(|value c| - |x|)| = |(Binary32.absUnits c : ℚ) - n / d| / 2 ^ 149 := by
  rw [abs_value, h.abs_eq, ← sub_div, abs_div, abs_of_pos (show (0 : ℚ) < 2 ^ 149 by positivity)]

theorem FractionOf.nearest {negative : Bool} {n d : Nat} {x : ℚ} (h : FractionOf negative n d x)
    (hfinite : Binary32.isFinite (Binary32.round negative n d) = true) (c : F32) :
    |value (Binary32.round negative n d) - x| ≤ |(|value c| - |x|)| := by
  rw [h.abs_value_sub, h.abs_abs_sub, h.abs_abs_sub]
  exact div_le_div_of_nonneg_right (Binary32.round_nearest h.pos hfinite c).1 (by positivity)

theorem FractionOf.ties_to_even {negative : Bool} {n d : Nat} {x : ℚ} (h : FractionOf negative n d x)
    (hfinite : Binary32.isFinite (Binary32.round negative n d) = true) {c : F32}
    (hne : value c ≠ value (Binary32.round negative n d))
    (htie : |value (Binary32.round negative n d) - x| = |value c - x|) :
    Binary32.fraction (Binary32.round negative n d) % 2 = 0 := by
  have hsizes : |value (Binary32.round negative n d) - x| = |(|value c| - |x|)| :=
    le_antisymm (h.nearest hfinite c) (htie ▸ abs_abs_sub_abs_le _ _)
  by_cases hsame : Binary32.absUnits c = Binary32.absUnits (Binary32.round negative n d)
  · exfalso
    have hopposite := (value_eq_or_eq_neg hsame).resolve_left hne
    have hzero : value (Binary32.round negative n d) = 0 := by
      rw [hopposite] at htie
      rcases abs_eq_abs.mp htie with heq | heq
      · linarith
      · have hx : x = 0 := by linarith
        have hnearest := h.nearest hfinite 0x00000000#32
        rw [hx, abs_value 0x00000000#32, Binary32.absUnits_zero] at hnearest
        simpa using hnearest
    exact hne (by rw [hopposite, hzero, neg_zero])
  · rw [h.abs_value_sub, h.abs_abs_sub, h.abs_abs_sub, div_left_inj' (by positivity)] at hsizes
    exact (Binary32.round_nearest h.pos hfinite c).2 hsizes hsame

theorem FractionOf.isFinite_iff {negative : Bool} {n d : Nat} {x : ℚ} (h : FractionOf negative n d x) :
    Binary32.isFinite (Binary32.round negative n d) = true ↔ |x| < (2 ^ 25 - 1) * 2 ^ 252 / 2 ^ 149 := by
  have hd : (0 : ℚ) < d := Nat.cast_pos.mpr h.pos
  have hthreshold : (2 ^ 25 - 1) * 2 ^ 252 = (Binary32.overflowThreshold : ℚ) := by norm_num [Binary32.overflowThreshold]
  rw [Binary32.isFinite_round_iff negative n h.pos, h.abs_eq, div_lt_div_iff_of_pos_right (by positivity), div_lt_iff₀ hd,
    hthreshold]
  norm_cast

theorem FractionOf.roundsTo {negative : Bool} {n d : Nat} {x : ℚ} (h : FractionOf negative n d x) :
    RoundsTo (Binary32.round negative n d) x where
  not_nan := Binary32.isNaN_round _ _ _
  finite_iff := h.isFinite_iff
  nearest hfinite c _ := (h.nearest hfinite c).trans (abs_abs_sub_abs_le _ _)
  ties_to_even hfinite _ _ := h.ties_to_even hfinite
  sign hx := by rw [Binary32.signBit_round, h.sign hx]

/- The four operations. -/

/-- The sign that an addition asks of `round`. -/
def signOfSum (a b : F32) : Bool :=
  if Binary32.units a + Binary32.units b = 0 then Binary32.signBit a && Binary32.signBit b
  else decide (Binary32.units a + Binary32.units b < 0)

theorem addFor_eq_round (op : NumOp) {a b : F32} (ha : Binary32.isFinite a = true) (hb : Binary32.isFinite b = true) :
    Binary32.addFor op a b = Binary32.round (signOfSum a b) (Binary32.units a + Binary32.units b).natAbs 1 := by
  rw [Binary32.addFor_of_isFinite op ha hb, signOfSum]
  split
  · rw [‹Binary32.units a + Binary32.units b = 0›]
    cases Binary32.signBit a && Binary32.signBit b <;> decide
  · rfl

theorem fractionOf_sum (a b : F32) :
    FractionOf (signOfSum a b) (Binary32.units a + Binary32.units b).natAbs 1 (value a + value b) where
  pos := Nat.one_pos
  abs_eq := by
    rw [value_add_value, abs_div, abs_of_pos (show (0 : ℚ) < 2 ^ 149 by positivity), ← Int.cast_abs, Int.abs_eq_natAbs,
      Int.cast_natCast, Nat.cast_one, div_one]
  sign hx := by
    have hpos : (0 : ℚ) < 2 ^ 149 := by positivity
    rw [value_add_value, ne_eq, div_eq_zero_iff, not_or, Int.cast_eq_zero] at hx
    rw [signOfSum, if_neg hx.1, value_add_value, decide_eq_decide, div_lt_iff₀ hpos, zero_mul, Int.cast_lt_zero]

theorem addFor_roundsTo (op : NumOp) {a b : F32} (ha : Binary32.isFinite a = true) (hb : Binary32.isFinite b = true) :
    RoundsTo (Binary32.addFor op a b) (value a + value b) := by
  rw [addFor_eq_round op ha hb]
  exact (fractionOf_sum a b).roundsTo

theorem sub_roundsTo {a b : F32} (ha : Binary32.isFinite a = true) (hb : Binary32.isFinite b = true) :
    RoundsTo (Binary32.sub a b) (value a - value b) := by
  rw [sub_eq_add_neg, ← value_negate]
  exact addFor_roundsTo .sub ha (Binary32.isFinite_negate hb)

/-- The sign that a product or a quotient asks of `round`, for operands that are not zero. -/
theorem signOfProduct_eq_decide {a b : F32} (ha : value a ≠ 0) (hb : value b ≠ 0) :
    Binary32.signOfProduct a b = decide (value a * value b < 0) := by
  have hpos : ∀ {q : ℚ}, q ≠ 0 → (0 < q ↔ ¬q < 0) := fun hq => ⟨fun h => h.not_gt, fun h => (not_lt.mp h).lt_of_ne' hq⟩
  rw [Binary32.signOfProduct, signBit_eq_of_value_ne_zero ha, signBit_eq_of_value_ne_zero hb]
  simp only [mul_neg_iff, hpos ha, hpos hb]
  by_cases hna : value a < 0 <;> by_cases hnb : value b < 0 <;> simp [hna, hnb]

theorem fractionOf_product (a b : F32) :
    FractionOf (Binary32.signOfProduct a b) (Binary32.absUnits a * Binary32.absUnits b) (2 ^ 149) (value a * value b) where
  pos := Nat.two_pow_pos _
  abs_eq := by
    rw [abs_mul, abs_value, abs_value]
    push_cast
    ring
  sign hx := signOfProduct_eq_decide (left_ne_zero_of_mul hx) (right_ne_zero_of_mul hx)

theorem mul_roundsTo {a b : F32} (ha : Binary32.isFinite a = true) (hb : Binary32.isFinite b = true) :
    RoundsTo (Binary32.mul a b) (value a * value b) := by
  rw [Binary32.mul_of_isFinite ha hb]
  exact (fractionOf_product a b).roundsTo

theorem Binary32.isZero_eq_false_iff (a : F32) : Binary32.isZero a = false ↔ 0 < Binary32.absUnits a := by
  rw [Bool.eq_false_iff, ne_eq, Binary32.isZero_iff_absUnits, Nat.pos_iff_ne_zero]

theorem fractionOf_quotient (a : F32) {b : F32} (hz : Binary32.isZero b = false) :
    FractionOf (Binary32.signOfProduct a b) (Binary32.absUnits a * 2 ^ 149) (Binary32.absUnits b) (value a / value b) where
  pos := (Binary32.isZero_eq_false_iff b).mp hz
  abs_eq := by
    rw [abs_div, abs_value, abs_value]
    rw [div_div_div_cancel_right₀ (by positivity), Nat.cast_mul, Nat.cast_pow, Nat.cast_ofNat, mul_div_right_comm,
      mul_div_cancel_right₀ _ (by positivity)]
  sign hx := by
    obtain ⟨ha, hb⟩ := div_ne_zero_iff.mp hx
    rw [signOfProduct_eq_decide ha hb, decide_eq_decide, div_neg_iff, mul_neg_iff]

theorem div_roundsTo {a b : F32} (ha : Binary32.isFinite a = true) (hb : Binary32.isFinite b = true)
    (hz : Binary32.isZero b = false) : RoundsTo (Binary32.div a b) (value a / value b) := by
  rw [Binary32.div_of_isFinite ha hb hz]
  exact (fractionOf_quotient a hz).roundsTo

/- The sign of a zero sum. -/

/-- A zero sum has its sign bit set only for two zeros that have. -/
theorem signBit_addFor_of_sum_eq_zero (op : NumOp) {a b : F32} (ha : Binary32.isFinite a = true)
    (hb : Binary32.isFinite b = true) (h : value a + value b = 0) :
    Binary32.signBit (Binary32.addFor op a b) = true ↔ a = 0x80000000#32 ∧ b = 0x80000000#32 := by
  have hunits : Binary32.units a + Binary32.units b = 0 := by
    rw [value_add_value, div_eq_zero_iff, Int.cast_eq_zero] at h
    exact h.resolve_right (by positivity)
  rw [addFor_eq_round op ha hb, Binary32.signBit_round, signOfSum, if_pos hunits, Bool.and_eq_true]
  constructor
  · rintro ⟨hsa, hsb⟩
    have hua : Binary32.units a = -Binary32.absUnits a := by simp [Binary32.units, hsa]
    have hub : Binary32.units b = -Binary32.absUnits b := by simp [Binary32.units, hsb]
    constructor
    · refine (Binary32.eq_zero_of_units_eq_zero (by omega)).resolve_left ?_
      rintro rfl
      exact absurd hsa (by decide)
    · refine (Binary32.eq_zero_of_units_eq_zero (by omega)).resolve_left ?_
      rintro rfl
      exact absurd hsb (by decide)
  · rintro ⟨rfl, rfl⟩
    decide

theorem negate_eq_negZero_iff (b : F32) : Binary32.negate b = 0x80000000#32 ↔ b = 0x00000000#32 := by
  constructor
  · intro h
    refine Binary32.eq_of_signBit_magnitude ?_ ?_
    · rw [← Bool.not_not (Binary32.signBit b), ← Binary32.signBit_negate, h]
      decide
    · rw [← Binary32.magnitude_negate, h]
      decide
  · rintro rfl
    decide

theorem signBit_sub_of_difference_eq_zero {a b : F32} (ha : Binary32.isFinite a = true) (hb : Binary32.isFinite b = true)
    (h : value a - value b = 0) :
    Binary32.signBit (Binary32.sub a b) = true ↔ a = 0x80000000#32 ∧ b = 0x00000000#32 := by
  rw [← negate_eq_negZero_iff b]
  exact signBit_addFor_of_sum_eq_zero .sub ha (Binary32.isFinite_negate hb) (by rwa [value_negate, ← sub_eq_add_neg])

/-- Settles O34: on finite operands each operation is one call of `round`, whose fraction is the size of the exact result. -/
theorem operationsAreCorrectlyRounded : Obligations.OperationsAreCorrectlyRounded := by
  intro a b ha hb
  refine ⟨addFor_roundsTo .add ha hb, sub_roundsTo ha hb, mul_roundsTo ha hb, div_roundsTo ha hb,
    signBit_addFor_of_sum_eq_zero .add ha hb, signBit_sub_of_difference_eq_zero ha hb, ?_, fun hz => ?_⟩
  · rw [Binary32.mul_of_isFinite ha hb, Binary32.signBit_round, Binary32.signOfProduct]
  · rw [Binary32.div_of_isFinite ha hb hz, Binary32.signBit_round, Binary32.signOfProduct]

/- Widenings and count differences (R86, R87). -/

/-- The value of a pattern with sign bit 0. -/
theorem Binary32.FiniteNotNegative.value_eq {a : F32} (h : FiniteNotNegative a) :
    value a = (Binary32.absUnits a : ℚ) / 2 ^ 149 := by
  rw [value, h.units_eq, Int.cast_natCast]

theorem value_ofNat {u : Nat} (h : u < 2 ^ 24) : value (Binary32.ofNat u) = u := by
  obtain ⟨hfinite, hunits⟩ := Binary32.ofNat_exact h
  rw [hfinite.value_eq, hunits, Nat.cast_mul, Nat.cast_pow, Nat.cast_ofNat,
    mul_div_cancel_right₀ _ (by positivity)]

/-- Settles O35: an integer below 2^24 is representable. -/
theorem wideningIsExact : Obligations.WideningIsExact := fun u =>
  ⟨(Binary32.finiteNotNegative_cvt u).finite, (Binary32.finiteNotNegative_cvt u).sign, value_ofNat (by omega)⟩

/-- R87: the difference of two widenings is the widening of the difference. -/
theorem sub_cvt_cvt {a b : Count} (h : b.toNat ≤ a.toNat) :
    Binary32.sub (Binary32.cvt a) (Binary32.cvt b) = Binary32.ofNat (a.toNat - b.toNat) := by
  rw [Binary32.sub_eq_round (Binary32.finiteNotNegative_cvt a) (Binary32.finiteNotNegative_cvt b), Binary32.absUnits_cvt,
    Binary32.absUnits_cvt, ← Nat.sub_mul, Binary32.ofNat]
  rw [Binary32.absUnits_cvt, Binary32.absUnits_cvt]
  exact Nat.mul_le_mul_right _ h

theorem value_sub_cvt_cvt {a b : Count} (h : b.toNat ≤ a.toNat) :
    value (Binary32.sub (Binary32.cvt a) (Binary32.cvt b)) = (a.toNat : ℚ) - b.toNat := by
  rw [sub_cvt_cvt h, value_ofNat (by omega), Nat.cast_sub h]

/-- Settles O36: both differences are of counts in order, and the second is not zero. -/
theorem countDifferencesAreExact : Obligations.CountDifferencesAreExact := by
  intro count c0 c1 v0 v1 hlow hhigh
  have ht4 := value_sub_cvt_cvt (hlow.trans hhigh.le)
  refine ⟨value_sub_cvt_cvt hlow, ht4, ht4.ge.trans' ?_⟩
  have hone : ((c0.toNat + 1 : ℕ) : ℚ) ≤ c1.toNat := Nat.cast_le.mpr (hlow.trans_lt hhigh)
  push_cast at hone
  linarith

end Sys2Proof.Machine
end

section
/-! PROOFS. The family of 42_interpolate.md, its operations by class: the clamps (R83, R84), a segment (R80, R81, R82), and with the
default numerics the nodes (R88) and a flat segment. -/

namespace Sys2Proof.Machine

open Binary32 (FiniteNotNegative)

/-- Settles O10: an answered operation has driven `VELOCITY` and done nothing else. -/
theorem evaluationChangesOnlyVelocity : Obligations.EvaluationChangesOnlyVelocity := by
  intro i s t h
  obtain ⟨-, y, -, rfl⟩ := (exec_eq_next i s t).mp h
  exact ⟨rfl, rfl, rfl, fun _ _ => ⟨rfl, rfl⟩⟩

/-- Settles O31: the formula is `lerp_eq`, and the example is evaluated. -/
theorem lerpIsTheWrittenFormula : Obligations.LerpIsTheWrittenFormula :=
  ⟨fun num count c0 c1 v0 v1 => lerp_eq num count c0 v0 c1 v1, rfl⟩

/- The nodes of legal contents, read by index (R30). -/

theorem lt_nodes_of_readCnt {m : Memory} (h : m.wf = true) {v : Variant} {i : Nat} {c : Count}
    (hc : readCnt m v i = some c) : i < nodes v := by
  obtain ⟨⟨hlength, -⟩, -, -, -⟩ := (Bank.wf_iff _ _).mp (Memory.wf_bank h v)
  rw [readCnt_eq] at hc
  rw [← hlength]
  exact (List.getElem?_eq_some_iff.mp hc).1

/-- R30(b), for any two nodes in order. -/
theorem readCnt_le_of_le {m : Memory} (h : m.wf = true) {v : Variant} {i j : Nat} (hij : i ≤ j) {p q : Count}
    (hp : readCnt m v i = some p) (hq : readCnt m v j = some q) : p.toNat ≤ q.toNat := by
  rcases Nat.eq_or_lt_of_le hij with rfl | hlt
  · cases hp.symm.trans hq
    exact le_rfl
  · rw [readCnt_eq] at hp hq
    exact (Bank.cnt_lt (countsIncrease_of_wf h v) hlt hp hq).le

theorem Binary32.le_refl_of_isFinite {a : F32} (h : Binary32.isFinite a = true) : Binary32.le a a = true := by
  simp [Binary32.le, Binary32.isNaN_of_isFinite h]

theorem readVel_isFinite {m : Memory} (h : m.wf = true) {v : Variant} {i : Nat} {p : F32} (hp : readVel m v i = some p) :
    Binary32.isFinite p = true := by
  obtain ⟨-, -, -, hfinite⟩ := (Bank.wf_iff _ _).mp (Memory.wf_bank h v)
  rw [readVel_eq] at hp
  exact Bank.vel_finite hfinite hp

/-- R30(c), for any two nodes in order. -/
theorem readVel_le_of_le {m : Memory} (h : m.wf = true) {v : Variant} {i j : Nat} (hij : i ≤ j) {p q : F32}
    (hp : readVel m v i = some p) (hq : readVel m v j = some q) : Binary32.le p q = true := by
  rcases Nat.eq_or_lt_of_le hij with rfl | hlt
  · cases hp.symm.trans hq
    exact Binary32.le_refl_of_isFinite (readVel_isFinite h hp)
  · obtain ⟨-, -, hrise, -⟩ := (Bank.wf_iff _ _).mp (Memory.wf_bank h v)
    rw [readVel_eq] at hp hq
    exact Bank.vel_le hrise hlt hp hq

/- The result of each class, for any numerics record (R80, R81). -/

theorem interpolate_low {m : Memory} (h : m.wf = true) (num : Numerics) {v : Variant} {count c : Count} {y : F32}
    (hc : readCnt m v 0 = some c) (hy : readVel m v 0 = some y) (hle : count.toNat ≤ c.toNat) :
    interpolate num (select m v) count = some y := by
  obtain ⟨first, last, hends⟩ := readEnds_of_wf h v
  obtain ⟨hfc, hfv⟩ := (readNode_select_eq_some _ _ _ _).mp ((readEnds_eq_some _ _ _).mp hends).1
  cases hc.symm.trans hfc
  cases hy.symm.trans hfv
  simp only [interpolate, hends, (classify_eq_low _ _ _).mpr hle]
  rfl

theorem interpolate_high {m : Memory} (h : m.wf = true) (num : Numerics) {v : Variant} {count c : Count} {y : F32}
    (hc : readCnt m v (nodes v - 1) = some c) (hy : readVel m v (nodes v - 1) = some y) (hle : c.toNat ≤ count.toNat) :
    interpolate num (select m v) count = some y := by
  obtain ⟨first, last, hends⟩ := readEnds_of_wf h v
  obtain ⟨hfirst, hlast⟩ := (readEnds_eq_some _ _ _).mp hends
  rw [select_n] at hlast
  obtain ⟨hfc, -⟩ := (readNode_select_eq_some _ _ _ _).mp hfirst
  obtain ⟨hlc, hlv⟩ := (readNode_select_eq_some _ _ _ _).mp hlast
  cases hc.symm.trans hlc
  cases hy.symm.trans hlv
  have hlt := first_lt_last_of_wf h hfc hlc
  simp only [interpolate, hends, (classify_eq_high _ _ _).mpr ⟨hlt.trans_le hle, hle⟩]
  rfl

/-- The class SEG: BRACKET answers the segment that holds the count, and READ2 its two nodes. -/
theorem interpolate_seg {m : Memory} (h : m.wf = true) (num : Numerics) {v : Variant} {i : Nat}
    {count first c0 c1 : Count} {v0 v1 : F32} (hfirst : readCnt m v 0 = some first) (hlt : first.toNat < count.toNat)
    (hc0 : readCnt m v i = some c0) (hv0 : readVel m v i = some v0) (hc1 : readCnt m v (i + 1) = some c1)
    (hv1 : readVel m v (i + 1) = some v1) (hlow : c0.toNat ≤ count.toNat) (hhigh : count.toNat < c1.toNat) :
    interpolate num (select m v) count = some (lerp num count c0 v0 c1 v1) := by
  obtain ⟨firstNode, last, hends⟩ := readEnds_of_wf h v
  obtain ⟨hreadFirst, hreadLast⟩ := (readEnds_eq_some _ _ _).mp hends
  rw [select_n] at hreadLast
  obtain ⟨hfc, -⟩ := (readNode_select_eq_some _ _ _ _).mp hreadFirst
  obtain ⟨hlc, -⟩ := (readNode_select_eq_some _ _ _ _).mp hreadLast
  cases hfirst.symm.trans hfc
  have hi := lt_nodes_of_readCnt h hc1
  have hlast := readCnt_le_of_le h (Nat.le_sub_one_of_lt hi) hc1 hlc
  have hbracket : bracket (select m v) count = some i := by
    refine (bracket_eq_some_iff h).mpr ⟨by omega, (holds_iff _ _ _).mpr ⟨c0, c1, ?_, ?_, hlow, hhigh⟩⟩
    · rwa [← readCnt_eq]
    · rwa [← readCnt_eq]
  have hread : read2 (select m v) i = some (⟨c0, v0⟩, ⟨c1, v1⟩) :=
    (read2_eq_some _ _ _ _).mpr ⟨(readNode_select_eq_some _ _ _ _).mpr ⟨hc0, hv0⟩,
      (readNode_select_eq_some _ _ _ _).mpr ⟨hc1, hv1⟩⟩
  simp only [interpolate, hends, (classify_eq_seg _ _ _).mpr ⟨hlt, hhigh.trans_le hlast⟩, interpolateInside, hbracket, hread]

/-- Settles O30: both clamps are cases of CLASSIFY that hand the stored velocity on. -/
theorem clampsCopyTheEndVelocity : Obligations.ClampsCopyTheEndVelocity := by
  refine ⟨fun num s v count c y hwf => ⟨fun hc hy hle => ?_, fun hc hy hle => ?_⟩, rfl, rfl, rfl, rfl⟩
  · exact (evaluate_eq_next _ _ _ _ _).mpr ⟨hwf, y, interpolate_low hwf num hc hy hle, rfl⟩
  · exact (evaluate_eq_next _ _ _ _ _).mpr ⟨hwf, y, interpolate_high hwf num hc hy hle, rfl⟩

/- The nodes, with the default numerics (R88). -/

/-- Two neighbouring nodes of legal contents without a set sign bit, as far as the default numerics rest on them. -/
structure RisingSegment (c0 c1 : Count) (v0 v1 : F32) : Prop where
  counts_lt : c0.toNat < c1.toNat
  lower : FiniteNotNegative v0
  upper : FiniteNotNegative v1
  vel_le : Binary32.le v0 v1 = true

theorem RisingSegment.absUnits_le {c0 c1 : Count} {v0 v1 : F32} (h : RisingSegment c0 c1 v0 v1) :
    Binary32.absUnits v0 ≤ Binary32.absUnits v1 := (h.lower.le_iff h.upper).mp h.vel_le

theorem risingSegment_of_wf {m : Memory} (hwf : m.wf = true) (hsigns : m.signsClear = true) {v : Variant} {i : Nat}
    {c0 c1 : Count} {v0 v1 : F32} (hc0 : readCnt m v i = some c0) (hv0 : readVel m v i = some v0)
    (hc1 : readCnt m v (i + 1) = some c1) (hv1 : readVel m v (i + 1) = some v1) : RisingSegment c0 c1 v0 v1 where
  counts_lt := readCnt_lt_of_wf hwf hc0 hc1
  lower := finiteNotNegative_vel hwf hsigns hv0
  upper := finiteNotNegative_vel hwf hsigns hv1
  vel_le := readVel_le_of_wf hwf hv0 hv1

/-- The divisor of LERP: finite, without a sign and no zero. -/
theorem RisingSegment.divisor {c0 c1 : Count} {v0 v1 : F32} (h : RisingSegment c0 c1 v0 v1) :
    FiniteNotNegative (Binary32.sub (Binary32.cvt c1) (Binary32.cvt c0)) ∧
      Binary32.isZero (Binary32.sub (Binary32.cvt c1) (Binary32.cvt c0)) = false := by
  have hcvt := Binary32.finiteNotNegative_cvt
  have hlt : Binary32.absUnits (Binary32.cvt c0) < Binary32.absUnits (Binary32.cvt c1) := by simpa using h.counts_lt
  exact ⟨Binary32.finiteNotNegative_sub (hcvt _) (hcvt _) hlt.le, Binary32.isZero_sub_of_lt (hcvt _) (hcvt _) hlt⟩

theorem Binary32.FiniteNotNegative.zero_lt {a : F32} (h : FiniteNotNegative a) (hz : Binary32.isZero a = false) :
    Binary32.lt 0x00000000#32 a = true := by
  have hzero : Binary32.isNaN 0x00000000#32 = false := by decide
  have hkey0 : Binary32.orderKey 0x00000000#32 = 0 := by decide
  have hkey : Binary32.orderKey a = Binary32.magnitude a := by simp [Binary32.orderKey, h.sign]
  have hmag : Binary32.magnitude a ≠ 0 := of_decide_eq_false hz
  simp only [Binary32.lt, hzero, h.notNegative.not_nan, hkey0, hkey, Bool.not_false, Bool.true_and, decide_eq_true_eq]
  omega

/-- What has sign bit 0 is not -0. -/
theorem Binary32.FiniteNotNegative.ne_negZero {a : F32} (h : FiniteNotNegative a) : a ≠ 0x80000000#32 := by
  rintro rfl
  exact absurd h.sign (by decide)

/-- R88 at the lower node of a segment: the identities of R72 apply. -/
theorem RisingSegment.lerp_lower {c0 c1 : Count} {v0 v1 : F32} (h : RisingSegment c0 c1 v0 v1) :
    lerp binary32 c0 c0 v0 c1 v1 = v0 := by
  obtain ⟨hdivisor, hnonzero⟩ := h.divisor
  have hdiff := Binary32.finiteNotNegative_sub h.upper h.lower h.absUnits_le
  exact lowerNodeIsExactForAnyNumerics binary32 c0 c1 v0 v1 defaultNumericsHaveTheNodeIdentities
    (Binary32.finiteNotNegative_cvt c0).finite hdiff.finite hdiff.sign (hdivisor.zero_lt hnonzero) h.lower.finite
    h.lower.ne_negZero

/-- The mirror of `mul(+0, b) = +0` (R72). -/
theorem Binary32.mul_zero_of_finiteNotNegative {a : F32} (ha : FiniteNotNegative a) :
    Binary32.mul a 0x00000000#32 = 0x00000000#32 := by
  rw [Binary32.mul_of_isFinite ha.finite Binary32.finiteNotNegative_zero.finite,
    ha.notNegative.signOfProduct_eq Binary32.finiteNotNegative_zero.notNegative, Binary32.absUnits_zero, Nat.mul_zero,
    Binary32.round_zero (Nat.two_pow_pos _)]

/-- LERP (R82) with the default numerics. -/
theorem lerp_binary32 (count c0 : Count) (v0 : F32) (c1 : Count) (v1 : F32) :
    lerp binary32 count c0 v0 c1 v1 =
      Binary32.add v0 (Binary32.div
        (Binary32.mul (Binary32.sub (Binary32.cvt count) (Binary32.cvt c0)) (Binary32.sub v1 v0))
        (Binary32.sub (Binary32.cvt c1) (Binary32.cvt c0))) := lerp_eq binary32 count c0 v0 c1 v1

/-- The first factor of LERP: finite and without a sign. -/
theorem finiteNotNegative_offset {count c0 : Count} (h : c0.toNat ≤ count.toNat) :
    FiniteNotNegative (Binary32.sub (Binary32.cvt count) (Binary32.cvt c0)) :=
  Binary32.finiteNotNegative_sub (Binary32.finiteNotNegative_cvt _) (Binary32.finiteNotNegative_cvt _) (by simpa using h)

/-- R82: over a flat segment the difference of the velocities is +0, and so are the product and the quotient. -/
theorem RisingSegment.lerp_flat {c0 c1 : Count} {y : F32} (h : RisingSegment c0 c1 y y) {count : Count}
    (hlow : c0.toNat ≤ count.toNat) : lerp binary32 count c0 y c1 y = y := by
  obtain ⟨hdivisor, hnonzero⟩ := h.divisor
  rw [lerp_binary32, Binary32.sub_self_of_isFinite h.lower.finite,
    Binary32.mul_zero_of_finiteNotNegative (finiteNotNegative_offset hlow),
    Binary32.zero_div_of_zero_lt (hdivisor.zero_lt hnonzero),
    Binary32.add_zero_of_ne_negZero h.lower.finite h.lower.ne_negZero]

/-- With the default numerics a segment's LERP is the result at its lower node too, where the node may be the first (R88). -/
theorem interpolate_seg_binary32 {m : Memory} (hwf : m.wf = true) (hsigns : m.signsClear = true) {v : Variant} {i : Nat}
    {count c0 c1 : Count} {v0 v1 : F32} (hc0 : readCnt m v i = some c0) (hv0 : readVel m v i = some v0)
    (hc1 : readCnt m v (i + 1) = some c1) (hv1 : readVel m v (i + 1) = some v1) (hlow : c0.toNat ≤ count.toNat)
    (hhigh : count.toNat < c1.toNat) :
    interpolate binary32 (select m v) count = some (lerp binary32 count c0 v0 c1 v1) := by
  obtain ⟨first, last, hends⟩ := readEnds_of_wf hwf v
  obtain ⟨hfc, hfv⟩ := (readNode_select_eq_some _ _ _ _).mp ((readEnds_eq_some _ _ _).mp hends).1
  rcases Nat.lt_or_ge first.c.toNat count.toNat with hlt | hle
  · exact interpolate_seg hwf binary32 hfc hlt hc0 hv0 hc1 hv1 hlow hhigh
  · have hcount : count = c0 :=
      BitVec.eq_of_toNat_eq (le_antisymm (hle.trans (readCnt_le_of_le hwf (Nat.zero_le i) hfc hc0)) hlow)
    have hi : i = 0 := by
      by_contra hne
      rw [readCnt_eq] at hfc hc0
      have := Bank.cnt_lt (countsIncrease_of_wf hwf v) (Nat.pos_of_ne_zero hne) hfc hc0
      omega
    subst hi
    rw [hcount, (risingSegment_of_wf hwf hsigns hc0 hv0 hc1 hv1).lerp_lower]
    exact interpolate_low hwf binary32 hc0 hv0 le_rfl

/-- R88, for every node. -/
theorem interpolate_node {m : Memory} (hwf : m.wf = true) (hsigns : m.signsClear = true) {v : Variant} {k : Nat} {c : Count}
    {y : F32} (hc : readCnt m v k = some c) (hy : readVel m v k = some y) :
    interpolate binary32 (select m v) c = some y := by
  rcases Nat.eq_or_lt_of_le (Nat.le_sub_one_of_lt (lt_nodes_of_readCnt hwf hc)) with rfl | hk
  · exact interpolate_high hwf binary32 hc hy le_rfl
  · obtain ⟨lower, upper, hread⟩ := read2_of_wf hwf v hk
    obtain ⟨hc1, hv1⟩ := (readNode_select_eq_some _ _ _ _).mp ((read2_eq_some _ _ _ _).mp hread).2
    have hsegment := risingSegment_of_wf hwf hsigns hc hy hc1 hv1
    rw [interpolate_seg_binary32 hwf hsigns hc hy hc1 hv1 le_rfl hsegment.counts_lt, hsegment.lerp_lower]

/-- What an operation of a variant and a count drives. -/
theorem exec_interp_iff (v : Variant) (count : Count) (s : State) (y : F32) :
    exec (interp v count) s = .next (driveVelocity y s) ↔
      s.rom.wf = true ∧ interpolate s.numerics (select s.rom v) count = some y := by
  rw [exec_eq_driveVelocity_iff, interp_variant, interp_count]

/-- Settles O39: an interior node opens a segment, and the last one is clamped. -/
theorem nodesAreExact : Obligations.NodesAreExact := by
  intro s v k c y hnum hwf hsigns hc hy
  refine (exec_interp_iff v c s y).mpr ⟨hwf, ?_⟩
  rw [numerics_of_standard hnum]
  exact interpolate_node hwf hsigns hc hy

/-- Settles O40: the difference of the velocities is +0. -/
theorem flatSegmentIsConstant : Obligations.FlatSegmentIsConstant := by
  intro s v i c0 c1 count y hnum hwf hsigns hc0 hc1 hv0 hv1 hlow hhigh
  refine (exec_interp_iff v count s y).mpr ⟨hwf, ?_⟩
  rw [numerics_of_standard hnum, interpolate_seg_binary32 hwf hsigns hc0 hv0 hc1 hv1 hlow hhigh,
    (risingSegment_of_wf hwf hsigns hc0 hv0 hc1 hv1).lerp_flat hlow]

/- INTERP.N and INTERP.W by their rules (R80, R81), for both variants at once. -/

/-- The three classes over every legal contents and every numerics record. -/
theorem exec_follows_class {s : State} (hwf : s.rom.wf = true) (v : Variant) (count : Count) :
    (∀ c0 v0, readCnt s.rom v 0 = some c0 → readVel s.rom v 0 = some v0 → count.toNat ≤ c0.toNat →
      exec (interp v count) s = .next (driveVelocity v0 s)) ∧
    (∀ cl vl, readCnt s.rom v (nodes v - 1) = some cl → readVel s.rom v (nodes v - 1) = some vl →
      cl.toNat ≤ count.toNat → exec (interp v count) s = .next (driveVelocity vl s)) ∧
    (∀ first i c0 v0 c1 v1, readCnt s.rom v 0 = some first → first.toNat < count.toNat →
      readCnt s.rom v i = some c0 → readVel s.rom v i = some v0 → readCnt s.rom v (i + 1) = some c1 →
      readVel s.rom v (i + 1) = some v1 → c0.toNat ≤ count.toNat → count.toNat < c1.toNat →
      exec (interp v count) s = .next (driveVelocity (lerp s.numerics count c0 v0 c1 v1) s)) := by
  simp only [exec_interp_iff, hwf, true_and]
  exact ⟨fun _ _ => interpolate_low hwf s.numerics, fun _ _ => interpolate_high hwf s.numerics,
    fun _ _ _ _ _ _ => interpolate_seg hwf s.numerics⟩

theorem defaultMemory_wf : defaultMemory.wf = true := by decide
theorem defaultMemory_signsClear : defaultMemory.signsClear = true := by decide

theorem readCnt_default_first (v : Variant) : readCnt defaultMemory v 0 = some 409#16 := by cases v <;> rfl
theorem readVel_default_first (v : Variant) : readVel defaultMemory v 0 = some 0x00000000#32 := by cases v <;> rfl
theorem readCnt_default_last (v : Variant) : readCnt defaultMemory v (nodes v - 1) = some 3686#16 := by cases v <;> rfl

theorem rom_of_defaultConfiguration {s : State} (h : s.config = defaultConfiguration) : s.rom = defaultMemory :=
  congrArg Configuration.rom h

/-- What an operation drives under the default configuration. -/
theorem exec_default_iff {s : State} (h : s.config = defaultConfiguration) (v : Variant) (count : Count) (y : F32) :
    exec (interp v count) s = .next (driveVelocity y s) ↔ interpolate binary32 (select defaultMemory v) count = some y := by
  rw [exec_interp_iff, rom_of_defaultConfiguration h, numerics_of_defaultConfiguration h]
  exact and_iff_right defaultMemory_wf

/-- The corner cases of the default configuration: both clamps and every node. -/
theorem exec_default_corners {s : State} (h : s.config = defaultConfiguration) (v : Variant) {last : F32}
    (hlast : readVel defaultMemory v (nodes v - 1) = some last) (count : Count) :
    (count.toNat ≤ 409 → exec (interp v count) s = .next (driveVelocity 0x00000000#32 s)) ∧
    (3686 ≤ count.toNat → exec (interp v count) s = .next (driveVelocity last s)) ∧
    (∀ k y, readCnt s.rom v k = some count → readVel s.rom v k = some y →
      exec (interp v count) s = .next (driveVelocity y s)) := by
  simp only [exec_default_iff h, rom_of_defaultConfiguration h]
  exact ⟨interpolate_low defaultMemory_wf binary32 (readCnt_default_first v) (readVel_default_first v),
    interpolate_high defaultMemory_wf binary32 (readCnt_default_last v) hlast,
    fun _ _ => interpolate_node defaultMemory_wf defaultMemory_signsClear⟩

/-- Settles O28: the classes and the corner cases are those of both variants, and the example is evaluated. -/
theorem interpNFollowsItsRule : Obligations.InterpNFollowsItsRule := by
  constructor
  · intro s count hwf
    obtain ⟨hlow, hhigh, hseg⟩ := exec_follows_class hwf .narrowRange count
    exact ⟨hlow, hhigh, fun first i c0 v0 c1 v1 hfirst hlt _ => hseg first i c0 v0 c1 v1 hfirst hlt⟩
  · intro s count h
    obtain ⟨hlow, hhigh, hnode⟩ := exec_default_corners h .narrowRange rfl count
    exact ⟨hlow, hhigh, hnode, (exec_default_iff h .narrowRange 909#16 _).mpr (by decide)⟩

/-- Settles O29, as O28. -/
theorem interpWFollowsItsRule : Obligations.InterpWFollowsItsRule := by
  constructor
  · intro s count hwf
    obtain ⟨hlow, hhigh, hseg⟩ := exec_follows_class hwf .wideRange count
    exact ⟨hlow, hhigh, fun first i c0 v0 c1 v1 hfirst hlt _ => hseg first i c0 v0 c1 v1 hfirst hlt⟩
  · intro s count h
    obtain ⟨hlow, hhigh, hnode⟩ := exec_default_corners h .wideRange rfl count
    exact ⟨hlow, hhigh, hnode, (exec_default_iff h .wideRange 1400#16 _).mpr (by decide)⟩

end Sys2Proof.Machine
end

section
/-! PROOFS. The family of 42_interpolate.md, order: within a segment and across nodes (R89), the bounds by the first velocity (R90),
and the checks that decide the named property. -/

namespace Sys2Proof.Machine.Binary32

/- The operations keep the order of the values (R89). -/

theorem NotNegative.le_iff {a b : F32} (ha : NotNegative a) (hb : NotNegative b) :
    le a b = true ↔ magnitude a ≤ magnitude b := by
  simp [le, orderKey, ha.not_nan, hb.not_nan, ha.sign, hb.sign]

theorem NotNegative.magnitude_le {a : F32} (h : NotNegative a) : magnitude a ≤ infinityMagnitude := by
  have := h.not_nan
  simp only [isNaN, decide_eq_false_iff_not] at this
  omega

theorem le_round_round {n d n' d' : Nat} (hd : 0 < d) (hd' : 0 < d') (h : n * d' ≤ n' * d) :
    le (round false n d) (round false n' d') = true :=
  ((notNegative_round n d).le_iff (notNegative_round n' d')).mpr (magnitude_round_mono _ _ hd hd' h)

theorem mul_eq_round {a b : F32} (ha : FiniteNotNegative a) (hb : FiniteNotNegative b) :
    mul a b = round false (absUnits a * absUnits b) (2 ^ 149) := by
  rw [mul_of_isFinite ha.finite hb.finite, ha.notNegative.signOfProduct_eq hb.notNegative]

theorem div_eq_round {a b : F32} (ha : FiniteNotNegative a) (hb : FiniteNotNegative b) (hz : isZero b = false) :
    div a b = round false (absUnits a * 2 ^ 149) (absUnits b) := by
  rw [div_of_isFinite ha.finite hb.finite hz, ha.notNegative.signOfProduct_eq hb.notNegative]

theorem add_eq_round {a b : F32} (ha : FiniteNotNegative a) (hb : FiniteNotNegative b) :
    add a b = round false (absUnits a + absUnits b) 1 := by
  have hsign : signOfSum a b = false := by
    rw [signOfSum, ha.units_eq, hb.units_eq, ha.sign, hb.sign]
    split
    · rfl
    · exact decide_eq_false (by omega)
  rw [add, addFor_eq_round _ ha.finite hb.finite, hsign, ha.units_eq, hb.units_eq, ← Nat.cast_add, Int.natAbs_natCast]

theorem mul_mono {a a' b : F32} (ha : FiniteNotNegative a) (ha' : FiniteNotNegative a') (hb : FiniteNotNegative b)
    (h : absUnits a ≤ absUnits a') : le (mul a b) (mul a' b) = true := by
  rw [mul_eq_round ha hb, mul_eq_round ha' hb]
  exact le_round_round (Nat.two_pow_pos _) (Nat.two_pow_pos _) (Nat.mul_le_mul_right _ (Nat.mul_le_mul_right _ h))

/-- An infinite value is the greatest one. -/
theorem NotNegative.le_of_isInfinite {a b : F32} (ha : NotNegative a) (hb : NotNegative b) (h : isInfinite b = true) :
    le a b = true := by
  rw [ha.le_iff hb, of_decide_eq_true h]
  exact ha.magnitude_le

/-- What is no greater than a finite value is finite. -/
theorem NotNegative.isFinite_of_le {a b : F32} (ha : NotNegative a) (hb : FiniteNotNegative b) (h : le a b = true) :
    FiniteNotNegative a := by
  have hle := (ha.le_iff hb.notNegative).mp h
  have hlt : magnitude b < infinityMagnitude := of_decide_eq_true hb.finite
  exact ⟨decide_eq_true (by omega), ha.sign⟩

theorem NotNegative.finiteNotNegative {a : F32} (h : NotNegative a) (hi : isInfinite a = false) : FiniteNotNegative a :=
  ⟨isFinite_of_not_nan_of_not_infinite h.not_nan hi, h.sign⟩

theorem div_of_isInfinite {a b : F32} (ha : NotNegative a) (hb : FiniteNotNegative b) (h : isInfinite a = true) :
    isInfinite (div a b) = true := by
  have hdiv : div a b = pack false infinityMagnitude := by
    simp [div, ha.not_nan, isNaN_of_isFinite, isInfinite_of_isFinite, hb.finite, h, ha.signOfProduct_eq hb.notNegative]
  rw [hdiv]
  decide

theorem div_mono {a a' b : F32} (ha : NotNegative a) (ha' : NotNegative a') (hb : FiniteNotNegative b)
    (hz : isZero b = false) (h : le a a' = true) : le (div a b) (div a' b) = true := by
  rcases hi : isInfinite a' with _ | _
  · have hfa' := ha'.finiteNotNegative hi
    have hfa := ha.isFinite_of_le hfa' h
    have hpos := (isZero_eq_false_iff b).mp hz
    rw [div_eq_round hfa hb hz, div_eq_round hfa' hb hz]
    exact le_round_round hpos hpos (Nat.mul_le_mul_right _ (Nat.mul_le_mul_right _ ((hfa.le_iff hfa').mp h)))
  · exact (notNegative_div ha hb hz).le_of_isInfinite (notNegative_div ha' hb hz) (div_of_isInfinite ha' hb hi)

theorem add_of_isInfinite {a b : F32} (ha : FiniteNotNegative a) (hb : NotNegative b) (h : isInfinite b = true) :
    add a b = b := by
  simp [add, addFor, hb.not_nan, isNaN_of_isFinite, isInfinite_of_isFinite, ha.finite, h]

theorem add_mono {a b b' : F32} (ha : FiniteNotNegative a) (hb : NotNegative b) (hb' : NotNegative b')
    (h : le b b' = true) : le (add a b) (add a b') = true := by
  rcases hi : isInfinite b' with _ | _
  · have hfb' := hb'.finiteNotNegative hi
    have hfb := hb.isFinite_of_le hfb' h
    have hle := (hfb.le_iff hfb').mp h
    rw [add_eq_round ha hfb, add_eq_round ha hfb']
    exact le_round_round Nat.one_pos Nat.one_pos (by omega)
  · refine (notNegative_add ha hb).le_of_isInfinite (notNegative_add ha hb') ?_
    rwa [add_of_isInfinite ha hb' hi]

end Sys2Proof.Machine.Binary32

namespace Sys2Proof.Machine

open Binary32 (FiniteNotNegative NotNegative)

/-- R89 within a segment: each operation of LERP keeps the order of the counts. -/
theorem RisingSegment.lerp_mono {c0 c1 count count' : Count} {v0 v1 : F32} (h : RisingSegment c0 c1 v0 v1)
    (hlow : c0.toNat ≤ count.toNat) (hle : count.toNat ≤ count'.toNat) :
    Binary32.le (lerp binary32 count c0 v0 c1 v1) (lerp binary32 count' c0 v0 c1 v1) = true := by
  obtain ⟨hdivisor, hnonzero⟩ := h.divisor
  have hoffset := finiteNotNegative_offset hlow
  have hoffset' := finiteNotNegative_offset (hlow.trans hle)
  have hdiff := Binary32.finiteNotNegative_sub h.upper h.lower h.absUnits_le
  have hproduct := Binary32.notNegative_mul hoffset hdiff
  have hproduct' := Binary32.notNegative_mul hoffset' hdiff
  rw [lerp_binary32, lerp_binary32]
  refine Binary32.add_mono h.lower (Binary32.notNegative_div hproduct hdivisor hnonzero)
    (Binary32.notNegative_div hproduct' hdivisor hnonzero) ?_
  refine Binary32.div_mono hproduct hproduct' hdivisor hnonzero (Binary32.mul_mono hoffset hoffset' hdiff ?_)
  rw [← hoffset.le_iff hoffset', sub_cvt_cvt hlow, sub_cvt_cvt (hlow.trans hle)]
  exact Binary32.le_round_round Nat.one_pos Nat.one_pos
    (Nat.mul_le_mul_right _ (Nat.mul_le_mul_right _ (Nat.sub_le_sub_right hle _)))

/-- R90: LERP does not go below the lower velocity, since it is that at the lower node. -/
theorem RisingSegment.le_lerp {c0 c1 count : Count} {v0 v1 : F32} (h : RisingSegment c0 c1 v0 v1)
    (hlow : c0.toNat ≤ count.toNat) : Binary32.le v0 (lerp binary32 count c0 v0 c1 v1) = true := by
  have hmono := h.lerp_mono le_rfl hlow
  rwa [h.lerp_lower] at hmono

theorem readVel_of_readCnt {m : Memory} (h : m.wf = true) {v : Variant} {i : Nat} {c : Count}
    (hc : readCnt m v i = some c) : ∃ y, readVel m v i = some y := by
  obtain ⟨k, hk⟩ := readNode_of_wf h v (lt_nodes_of_readCnt h hc)
  exact ⟨k.v, ((readNode_select_eq_some _ _ _ _).mp hk).2⟩

/-- What an answered operation has driven, with the default numerics. -/
theorem interpolate_of_exec_interp {s t : State} (hnum : s.config.num = .standard) {v : Variant} {count : Count}
    (h : exec (interp v count) s = .next t) : interpolate binary32 (select s.rom v) count = some t.velocity := by
  have hy := interpolate_of_exec h
  rwa [interp_variant, interp_count, numerics_of_standard hnum] at hy

/-- Settles O41: both results are LERP over the segment. -/
theorem resultsRiseWithinASegment : Obligations.ResultsRiseWithinASegment := by
  intro s t t' v i c0 c1 count count' hnum hwf hsigns hc0 hc1 hlow hle hhigh hexec hexec'
  obtain ⟨v0, hv0⟩ := readVel_of_readCnt hwf hc0
  obtain ⟨v1, hv1⟩ := readVel_of_readCnt hwf hc1
  have hy := interpolate_of_exec_interp hnum hexec
  have hy' := interpolate_of_exec_interp hnum hexec'
  rw [interpolate_seg_binary32 hwf hsigns hc0 hv0 hc1 hv1 hlow (hle.trans_lt hhigh)] at hy
  rw [interpolate_seg_binary32 hwf hsigns hc0 hv0 hc1 hv1 (hlow.trans hle) hhigh] at hy'
  rw [← Option.some.inj hy, ← Option.some.inj hy']
  exact (risingSegment_of_wf hwf hsigns hc0 hv0 hc1 hv1).lerp_mono hlow hle

/-- Settles O45: a stored velocity is no less than the first, and LERP no less than its lower velocity. -/
theorem resultsAreNotBelowTheFirstNode : Obligations.ResultsAreNotBelowTheFirstNode := by
  intro s t v count y hnum hwf hsigns hy hexec
  rcases interpolate_stored_or_lerp (interpolate_of_exec_interp hnum hexec) with
    ⟨i, hi⟩ | ⟨i, lower, upper, hl, hu, hlow, -, hlerp⟩
  · exact readVel_le_of_le hwf (Nat.zero_le i) hy hi
  · obtain ⟨hc0, hv0⟩ := (readNode_select_eq_some _ _ _ _).mp hl
    obtain ⟨hc1, hv1⟩ := (readNode_select_eq_some _ _ _ _).mp hu
    rw [hlerp]
    exact Binary32.le_transitive (readVel_le_of_le hwf (Nat.zero_le i) hy hv0)
      ((risingSegment_of_wf hwf hsigns hc0 hv0 hc1 hv1).le_lerp hlow)

/- Results of two counts, related (R89). -/

/-- The results at two counts stand in a relation. -/
def ResultsRelated (r : F32 → F32 → Bool) (num : Numerics) (m : Memory) (v : Variant) (c c' : Count) : Prop :=
  ∃ y y', interpolate num (select m v) c = some y ∧ interpolate num (select m v) c' = some y' ∧ r y y' = true

theorem resultsInOrder_iff (num : Numerics) (m : Memory) (v : Variant) (c c' : Count) :
    resultsInOrder num m v c c' = true ↔ ResultsRelated Binary32.le num m v c c' := by
  unfold resultsInOrder ResultsRelated
  split
  · simp [*]
  · constructor
    · simp
    · rintro ⟨y, y', hy, hy', -⟩
      rename_i h
      exact absurd hy' (h _ _ hy)

theorem ResultsRelated.trans {r : F32 → F32 → Bool} (htrans : ∀ a b c, r a b = true → r b c = true → r a c = true)
    {num : Numerics} {m : Memory} {v : Variant} {c c' c'' : Count} (h : ResultsRelated r num m v c c')
    (h' : ResultsRelated r num m v c' c'') : ResultsRelated r num m v c c'' := by
  obtain ⟨x, y, hx, hy, hxy⟩ := h
  obtain ⟨y', z, hy', hz, hyz⟩ := h'
  cases hy.symm.trans hy'
  exact ⟨x, z, hx, hz, htrans _ _ _ hxy hyz⟩

theorem ResultsRelated.of_interpolate {r : F32 → F32 → Bool} {num : Numerics} {m : Memory} {v : Variant} {c c' : Count}
    (h : ResultsRelated r num m v c c') {y y' : F32} (hy : interpolate num (select m v) c = some y)
    (hy' : interpolate num (select m v) c' = some y') : r y y' = true := by
  obtain ⟨z, z', hz, hz', hr⟩ := h
  cases hy.symm.trans hz
  cases hy'.symm.trans hz'
  exact hr

/-- A transitive relation that holds between neighbouring counts of a range holds between any two in order. -/
theorem related_of_lt {R : Count → Count → Prop} (htrans : ∀ a b c, R a b → R b c → R a c) {lo hi : Nat}
    (hstep : ∀ a b : Count, lo ≤ a.toNat → b.toNat = a.toNat + 1 → b.toNat ≤ hi → R a b) {c c' : Count}
    (hlo : lo ≤ c.toNat) (hlt : c.toNat < c'.toNat) (hhi : c'.toNat ≤ hi) : R c c' := by
  obtain ⟨k, hk⟩ := Nat.exists_eq_add_of_lt hlt
  induction k generalizing c' with
  | zero => exact hstep c c' hlo hk hhi
  | succ k ih =>
    have hb : (BitVec.ofNat 16 (c.toNat + k + 1)).toNat = c.toNat + k + 1 := Nat.mod_eq_of_lt (by omega)
    exact htrans _ _ _ (ih (by omega) (by omega) hb) (hstep _ _ (by omega) (by omega) hhi)

theorem risesWithTheCount_iff (num : Numerics) (m : Memory) (v : Variant) :
    RisesWithTheCount num m v ↔ ∀ c c' : Count, c.toNat < c'.toNat → ResultsRelated Binary32.le num m v c c' := by
  simp only [RisesWithTheCount, resultsInOrder_iff]

/-- It is enough that neighbouring counts have their results in order. -/
theorem risesWithTheCount_of_neighbours {num : Numerics} {m : Memory} {v : Variant}
    (h : ∀ a b : Count, b.toNat = a.toNat + 1 → ResultsRelated Binary32.le num m v a b) : RisesWithTheCount num m v := by
  rw [risesWithTheCount_iff]
  intro c c' hlt
  refine related_of_lt (R := ResultsRelated Binary32.le num m v) (lo := 0) (hi := 65535) ?_ ?_ (Nat.zero_le _) hlt ?_
  · exact fun _ _ _ => ResultsRelated.trans (r := Binary32.le) fun _ _ _ => Binary32.le_transitive
  · exact fun a b _ hb _ => h a b hb
  · omega

theorem risesAtEveryCount_iff (num : Numerics) (m : Memory) (v : Variant) :
    risesAtEveryCount num m v = true ↔
      ∀ k < 65535, ResultsRelated Binary32.le num m v (BitVec.ofNat 16 k) (BitVec.ofNat 16 (k + 1)) := by
  simp only [risesAtEveryCount, List.all_eq_true, List.mem_range, resultsInOrder_iff]

/-- Settles O43: order is transitive, so it is decided by neighbouring counts. -/
theorem risingIsCheckedOrAssumedByName : Obligations.RisingIsCheckedOrAssumedByName := by
  constructor
  · intro num m v _
    rw [risesAtEveryCount_iff]
    constructor
    · refine fun hcheck => risesWithTheCount_of_neighbours fun a b hb => ?_
      have hab := hcheck a.toNat (by omega)
      rwa [← hb, BitVec.ofNat_toNat, BitVec.ofNat_toNat, BitVec.setWidth_eq, BitVec.setWidth_eq] at hab
    · intro hrises k hk
      refine (risesWithTheCount_iff num m v).mp hrises _ _ ?_
      rw [BitVec.toNat_ofNat, BitVec.toNat_ofNat]
      omega
  · intro s t t' v count count' hrises hlt hexec hexec'
    have hy := interpolate_of_exec hexec
    have hy' := interpolate_of_exec hexec'
    rw [interp_variant, interp_count] at hy hy'
    exact ((risesWithTheCount_iff _ _ _).mp hrises count count' hlt).of_interpolate hy hy'

/- The check across the nodes (R89). -/

/-- Between the end nodes some segment holds the count. -/
theorem exists_segment {m : Memory} (h : m.wf = true) {v : Variant} {count first last : Count}
    (hfirst : readCnt m v 0 = some first) (hlast : readCnt m v (nodes v - 1) = some last)
    (hlow : first.toNat ≤ count.toNat) (hhigh : count.toNat < last.toNat) :
    ∃ i c0 v0 c1 v1, i < nodes v - 1 ∧ readCnt m v i = some c0 ∧ readVel m v i = some v0 ∧
      readCnt m v (i + 1) = some c1 ∧ readVel m v (i + 1) = some v1 ∧ c0.toNat ≤ count.toNat ∧ count.toNat < c1.toNat := by
  rw [readCnt_eq] at hfirst hlast
  obtain ⟨i, hi, hholds⟩ := holds_below hfirst hlow hlast hhigh
  obtain ⟨c0, c1, hc0, hc1, hge, hlt⟩ := (holds_iff _ _ _).mp hholds
  rw [← readCnt_eq] at hc0 hc1
  obtain ⟨v0, hv0⟩ := readVel_of_readCnt h hc0
  obtain ⟨v1, hv1⟩ := readVel_of_readCnt h hc1
  exact ⟨i, c0, v0, c1, v1, hi, hc0, hv0, hc1, hv1, hge, hlt⟩

theorem risesAcrossNode_iff (num : Numerics) {t : Selection} {i : Nat} {lower upper : Node}
    (h : read2 t i = some (lower, upper)) :
    risesAcrossNode num t i = true ↔
      Binary32.le (lerp num (upper.c - 1#16) lower.c lower.v upper.c upper.v) upper.v = true := by
  rw [risesAcrossNode, h]

theorem risesAcrossNodes_iff (num : Numerics) (m : Memory) (v : Variant) :
    risesAcrossNodes num m v = true ↔ ∀ i < nodes v - 1, risesAcrossNode num (select m v) i = true := by
  simp only [risesAcrossNodes, List.all_eq_true, List.mem_range]

/-- The last count before a count that is not 0. -/
theorem toNat_sub_one {c : Count} (h : 0 < c.toNat) : (c - 1#16).toNat + 1 = c.toNat := by
  rw [BitVec.toNat_sub_of_le (by rw [BitVec.le_def]; exact h)]
  exact Nat.sub_add_cancel h

/-- Over legal contents without a set sign bit neighbouring counts have their results in order, within a segment by itself and
across a node by the check. -/
theorem resultsRelated_of_risesAcrossNodes {m : Memory} (hwf : m.wf = true) (hsigns : m.signsClear = true) {v : Variant}
    (hacross : risesAcrossNodes binary32 m v = true) {a b : Count} (hb : b.toNat = a.toNat + 1) :
    ResultsRelated Binary32.le binary32 m v a b := by
  obtain ⟨first, last, hends⟩ := readEnds_of_wf hwf v
  obtain ⟨hfirst, hlast⟩ := (readEnds_eq_some _ _ _).mp hends
  rw [select_n] at hlast
  obtain ⟨hfc, hfv⟩ := (readNode_select_eq_some _ _ _ _).mp hfirst
  obtain ⟨hlc, hlv⟩ := (readNode_select_eq_some _ _ _ _).mp hlast
  rcases Nat.lt_or_ge a.toNat first.c.toNat with hbelow | hlow
  · exact ⟨_, _, interpolate_low hwf _ hfc hfv hbelow.le, interpolate_low hwf _ hfc hfv (by omega),
      Binary32.le_refl_of_isFinite (readVel_isFinite hwf hfv)⟩
  rcases Nat.lt_or_ge a.toNat last.c.toNat with hhigh | habove
  swap
  · exact ⟨_, _, interpolate_high hwf _ hlc hlv habove, interpolate_high hwf _ hlc hlv (by omega),
      Binary32.le_refl_of_isFinite (readVel_isFinite hwf hlv)⟩
  obtain ⟨i, c0, v0, c1, v1, hi, hc0, hv0, hc1, hv1, hge, hlt⟩ := exists_segment hwf hfc hlc hlow hhigh
  have ha := interpolate_seg_binary32 hwf hsigns hc0 hv0 hc1 hv1 hge hlt
  rcases Nat.lt_or_ge b.toNat c1.toNat with hinside | hnode
  · exact ⟨_, _, ha, interpolate_seg_binary32 hwf hsigns hc0 hv0 hc1 hv1 (by omega) hinside,
      (risingSegment_of_wf hwf hsigns hc0 hv0 hc1 hv1).lerp_mono hge (by omega)⟩
  · have hbc : b = c1 := BitVec.eq_of_toNat_eq (by omega)
    have hac : c1 - 1#16 = a := BitVec.eq_of_toNat_eq (by have := toNat_sub_one (c := c1) (by omega); omega)
    have hread : read2 (select m v) i = some (⟨c0, v0⟩, ⟨c1, v1⟩) :=
      (read2_eq_some _ _ _ _).mpr ⟨(readNode_select_eq_some _ _ _ _).mpr ⟨hc0, hv0⟩,
        (readNode_select_eq_some _ _ _ _).mpr ⟨hc1, hv1⟩⟩
    have hle := (risesAcrossNode_iff binary32 hread).mp ((risesAcrossNodes_iff _ _ _).mp hacross i hi)
    rw [hac] at hle
    rw [hbc]
    exact ⟨_, _, ha, interpolate_node hwf hsigns hc1 hv1, hle⟩

/-- Settles O44: the check is the order of the results at a node and at the count before it. -/
theorem checkAcrossNodesDecidesRising : Obligations.CheckAcrossNodesDecidesRising := by
  intro m v hwf hsigns
  constructor
  · exact fun hacross => risesWithTheCount_of_neighbours fun _ _ => resultsRelated_of_risesAcrossNodes hwf hsigns hacross
  · rw [risesWithTheCount_iff, risesAcrossNodes_iff]
    intro hrises i hi
    obtain ⟨lower, upper, hread⟩ := read2_of_wf hwf v hi
    obtain ⟨hlower, hupper⟩ := (read2_eq_some _ _ _ _).mp hread
    obtain ⟨hc0, hv0⟩ := (readNode_select_eq_some _ _ _ _).mp hlower
    obtain ⟨hc1, hv1⟩ := (readNode_select_eq_some _ _ _ _).mp hupper
    have hlt := readCnt_lt_of_wf hwf hc0 hc1
    have hprevious := toNat_sub_one (c := upper.c) (by omega)
    refine (risesAcrossNode_iff binary32 hread).mpr ((hrises (upper.c - 1#16) upper.c (by omega)).of_interpolate ?_ ?_)
    · exact interpolate_seg_binary32 hwf hsigns hc0 hv0 hc1 hv1 (by omega) (by omega)
    · exact interpolate_node hwf hsigns hc1 hv1

/- Ranges (R90). -/

/-- Where results rise with the count, none is above the last velocity. -/
theorem le_last_of_rises {num : Numerics} {m : Memory} {v : Variant} (hwf : m.wf = true) (hrises : RisesWithTheCount num m v)
    {last y : F32} (hlast : readVel m v (nodes v - 1) = some last) {count : Count}
    (hy : interpolate num (select m v) count = some y) : Binary32.le y last = true := by
  obtain ⟨node, hnode⟩ := readNode_of_wf hwf v (i := nodes v - 1) (by have := two_le_nodes v; omega)
  obtain ⟨hc, -⟩ := (readNode_select_eq_some _ _ _ _).mp hnode
  have hmax : ((0xFFFF#16 : Count)).toNat = 65535 := rfl
  have htop := interpolate_high hwf num (count := 0xFFFF#16) hc hlast (by omega)
  rcases Nat.lt_or_ge count.toNat 65535 with hlt | hge
  · exact ((risesWithTheCount_iff _ _ _).mp hrises count 0xFFFF#16 (by omega)).of_interpolate hy htop
  · have hcount : count = 0xFFFF#16 := BitVec.eq_of_toNat_eq (by omega)
    rw [hcount] at hy
    cases hy.symm.trans htop
    exact Binary32.le_refl_of_isFinite (readVel_isFinite hwf hlast)

/-- R89 for the default configuration, by the check across its nodes. -/
theorem default_rises (v : Variant) : RisesWithTheCount binary32 defaultMemory v := by
  refine (checkAcrossNodesDecidesRising defaultMemory v defaultMemory_wf defaultMemory_signsClear).mp ?_
  cases v
  · decide
  · decide

/-- R90 for the default configuration: an operation drives a value between the velocities of the end nodes. -/
theorem default_exec_range {s : State} (h : s.config = defaultConfiguration) (v : Variant) {last : F32}
    (hlast : readVel defaultMemory v (nodes v - 1) = some last) (count : Count) :
    ∃ t, exec (interp v count) s = .next t ∧ Binary32.le 0x00000000#32 t.velocity = true ∧
      Binary32.le t.velocity last = true := by
  obtain ⟨y, hy⟩ := interpolate_of_wf defaultMemory_wf binary32 v count
  have hexec := (exec_default_iff h v count y).mpr hy
  have hnum : s.config.num = .standard := by rw [h]; rfl
  have hrom := rom_of_defaultConfiguration h
  refine ⟨_, hexec, ?_, le_last_of_rises defaultMemory_wf (default_rises v) hlast hy⟩
  refine resultsAreNotBelowTheFirstNode s _ v count _ hnum ?_ ?_ ?_ hexec
  · rw [hrom, defaultMemory_wf]
  · rw [hrom, defaultMemory_signsClear]
  · rw [hrom, readVel_default_first]

/-- Settles O46: bank N ends at 7.23 and bank W at 15.0. -/
theorem defaultResultsStayInRange : Obligations.DefaultResultsStayInRange := fun _ count h =>
  ⟨default_exec_range h .narrowRange rfl count, default_exec_range h .wideRange rfl count⟩

/-- Settles O53: a step is an operation of the variant on the port, and both ranges lie in [0.0, 15.0]. -/
theorem stepKeepsTheOutputInRange : Obligations.StepKeepsTheOutputInRange := by
  rintro s t ⟨hconfig, -, -⟩ hstep
  refine ⟨(step_keeps_config hstep).trans hconfig, ?_⟩
  rw [step_eq_exec (decode_request s)] at hstep
  obtain ⟨hnarrow, hwide⟩ := defaultResultsStayInRange s s.count hconfig
  rcases hv : s.variant with _ | _ <;> rw [hv] at hstep
  · obtain ⟨u, hexec, hlow, hhigh⟩ := hnarrow
    cases hexec.symm.trans hstep
    exact ⟨hlow, Binary32.le_transitive hhigh (by decide)⟩
  · obtain ⟨u, hexec, hlow, hhigh⟩ := hwide
    cases hexec.symm.trans hstep
    exact ⟨hlow, hhigh⟩

end Sys2Proof.Machine
end

section
/-! PROOFS. The family of 42_interpolate.md, safety and error: no wire is negative (R92), none overflows in a moderate table (R91), and
the rounded result is near the exact one (R93). -/

namespace Sys2Proof.Machine.Binary32

/- Bounds by powers of two. -/

/-- A finite value of sign bit 0 and of at most `2^k` units. -/
structure AtMost (k : Nat) (a : F32) : Prop where
  finiteNotNegative : FiniteNotNegative a
  absUnits_le : absUnits a ≤ 2 ^ k

/-- The powers of two from the least normal number on are representable. -/
theorem exists_absUnits_eq_two_pow {k : Nat} (hlow : 23 ≤ k) (hhigh : k < 277) :
    ∃ a, FiniteNotNegative a ∧ absUnits a = 2 ^ k := by
  obtain ⟨a, ha, hu⟩ := exists_absUnits_eq_significand (k := k - 23) (m := 2 ^ 23) (by omega) le_rfl (by norm_num)
  exact ⟨a, ha, by rw [hu, ← pow_add, Nat.add_sub_cancel' hlow]⟩

theorem atMost_round {k n d : Nat} (hlow : 23 ≤ k) (hhigh : k < 277) (hd : 0 < d) (h : n ≤ 2 ^ k * d) :
    AtMost k (round false n d) := by
  obtain ⟨a, ha, hu⟩ := exists_absUnits_eq_two_pow hlow hhigh
  have hle : magnitude (round false n d) ≤ magnitude a := by
    rw [← round_absUnits ha.finite Nat.one_pos]
    refine magnitude_round_mono _ _ hd Nat.one_pos ?_
    rwa [hu, mul_one, mul_one]
  have hlt : magnitude a < infinityMagnitude := of_decide_eq_true ha.finite
  refine ⟨⟨decide_eq_true (by omega), signBit_round _ _ _⟩, ?_⟩
  rw [← hu]
  exact (absUnits_le_iff _ _).mpr hle

/-- What is rounded from at least a power of two is at least that. -/
theorem two_pow_le_absUnits_round {k n d : Nat} (hlow : 23 ≤ k) (hhigh : k < 277) (hd : 0 < d) (h : 2 ^ k * d ≤ n) :
    2 ^ k ≤ absUnits (round false n d) := by
  obtain ⟨a, ha, hu⟩ := exists_absUnits_eq_two_pow hlow hhigh
  rw [← hu, absUnits_le_iff, ← round_absUnits ha.finite Nat.one_pos]
  refine magnitude_round_mono _ _ Nat.one_pos hd ?_
  rwa [hu, mul_one, mul_one]

theorem AtMost.mul {j k : Nat} {a b : F32} (ha : AtMost j a) (hb : AtMost k b) {l : Nat} (hl : j + k = l + 149)
    (hlow : 23 ≤ l) (hhigh : l < 277) : AtMost l (mul a b) := by
  rw [mul_eq_round ha.finiteNotNegative hb.finiteNotNegative]
  refine atMost_round hlow hhigh (Nat.two_pow_pos _) ?_
  rw [← pow_add, ← hl, pow_add]
  exact Nat.mul_le_mul ha.absUnits_le hb.absUnits_le

/-- A divisor of at least 1. -/
theorem AtMost.div {k : Nat} {a b : F32} (ha : AtMost k a) (hb : FiniteNotNegative b) (hone : 2 ^ 149 ≤ absUnits b)
    (hlow : 23 ≤ k) (hhigh : k < 277) : AtMost k (div a b) := by
  have hpos : 0 < absUnits b := (Nat.two_pow_pos _).trans_le hone
  rw [div_eq_round ha.finiteNotNegative hb ((isZero_eq_false_iff b).mpr hpos)]
  exact atMost_round hlow hhigh hpos (Nat.mul_le_mul ha.absUnits_le hone)

theorem AtMost.add {k : Nat} {a b : F32} (ha : AtMost k a) (hb : AtMost k b) (hlow : 23 ≤ k) (hhigh : k + 1 < 277) :
    AtMost (k + 1) (add a b) := by
  rw [add_eq_round ha.finiteNotNegative hb.finiteNotNegative]
  refine atMost_round (by omega) hhigh Nat.one_pos ?_
  have hsum := Nat.add_le_add ha.absUnits_le hb.absUnits_le
  rw [pow_succ]
  omega

theorem AtMost.mono {j k : Nat} {a : F32} (h : AtMost j a) (hjk : j ≤ k) : AtMost k a :=
  ⟨h.finiteNotNegative, h.absUnits_le.trans (Nat.pow_le_pow_right (by decide) hjk)⟩

/- The relative error of one rounding. -/

theorem le_absUnits_of_isNormal {a : F32} (h : isNormal a = true) : 2 ^ 23 ≤ absUnits a := by
  rw [isNormal, Bool.and_eq_true, decide_eq_true_eq] at h
  rw [absUnits, if_neg h.2]
  exact (Nat.le_add_right _ _).trans (Nat.le_mul_of_pos_right _ (Nat.two_pow_pos _))

theorem isNormal_of_le_absUnits {a : F32} (hfinite : isFinite a = true) (h : 2 ^ 23 ≤ absUnits a) : isNormal a = true := by
  have hf := fraction_lt a
  rw [isNormal, hfinite, Bool.true_and, decide_eq_true_eq]
  intro he
  rw [absUnits, if_pos he] at h
  omega

/-- A result of `round` has its last place where a normal number has it, or it is exact in units. -/
theorem shift_le_absUnits_round_or {n d : Nat} (hd : 0 < d) (hfinite : isFinite (round false n d) = true)
    (hcase : d = 1 ∨ 2 ^ 23 ≤ absUnits (round false n d)) :
    2 ^ 23 * 2 ^ shiftOf n d ≤ absUnits (round false n d) ∨ (d = 1 ∧ absUnits (round false n d) = n) := by
  rcases Nat.eq_zero_or_pos (shiftOf n d) with hk | hk
  · rcases hcase with rfl | hnormal
    · right
      rw [absUnits_round hd hfinite, significandOf, hk, pow_zero, mul_one]
      exact ⟨rfl, by simpa using nearestEven_mul n Nat.one_pos⟩
    · left
      rwa [hk, pow_zero, mul_one]
  · left
    rw [absUnits_round hd hfinite]
    exact Nat.mul_le_mul_right _ (le_nearestEven_shift hd hk)

/-- Half a unit in the last place: the result is off by at most the 2^24th part of itself, if it is normal or exact. -/
theorem absUnits_round_error {n d : Nat} (hd : 0 < d) (hfinite : isFinite (round false n d) = true)
    (hcase : d = 1 ∨ 2 ^ 23 ≤ absUnits (round false n d)) :
    |(absUnits (round false n d) : ℚ) - n / d| ≤ absUnits (round false n d) / 2 ^ 24 := by
  rcases shift_le_absUnits_round_or hd hfinite hcase with hplace | ⟨rfl, hexact⟩
  · have hhalf := (nearestEven_error n (Nat.mul_pos hd (Nat.two_pow_pos (shiftOf n d)))).1
    have hplaceq : (2 : ℚ) ^ 23 * 2 ^ shiftOf n d ≤ absUnits (round false n d) := by exact_mod_cast hplace
    calc |(absUnits (round false n d) : ℚ) - n / d|
        = |(significandOf n d : ℚ) - n / (d * 2 ^ shiftOf n d : ℕ)| * 2 ^ shiftOf n d := by
          rw [absUnits_round hd hfinite, abs_shifted_sub _ n hd]
      _ ≤ 1 / 2 * 2 ^ shiftOf n d := mul_le_mul_of_nonneg_right hhalf (by positivity)
      _ ≤ absUnits (round false n d) / 2 ^ 24 := by linarith
  · rw [hexact, Nat.cast_one, div_one, sub_self, abs_zero]
    positivity

end Sys2Proof.Machine.Binary32

namespace Sys2Proof.Machine

open Binary32 (FiniteNotNegative AtMost)

/- Relative errors that add up (R93). -/

/-- `r` comes from `x` by `k` roundings, each off by at most the 2^24th part of its result. -/
def NearBy (k : ℕ) (r x : ℚ) : Prop := (2 ^ 24 / (2 ^ 24 + 1)) ^ k * x ≤ r ∧ r ≤ (2 ^ 24 / (2 ^ 24 - 1)) ^ k * x

theorem nearBy_of_abs_sub_le {r x : ℚ} (h : |r - x| ≤ r / 2 ^ 24) : NearBy 1 r x := by
  obtain ⟨hlow, hhigh⟩ := abs_le.mp h
  constructor
  · rw [pow_one, div_mul_eq_mul_div, div_le_iff₀ (by norm_num)]
    linarith
  · rw [pow_one, div_mul_eq_mul_div, le_div_iff₀ (by norm_num)]
    linarith

theorem NearBy.trans {j k : ℕ} {r y x : ℚ} (h : NearBy j r y) (h' : NearBy k y x) : NearBy (j + k) r x := by
  obtain ⟨hlow, hhigh⟩ := h
  obtain ⟨hlow', hhigh'⟩ := h'
  rw [NearBy, pow_add, pow_add, mul_assoc, mul_assoc]
  exact ⟨(mul_le_mul_of_nonneg_left hlow' (by positivity)).trans hlow,
    hhigh.trans (mul_le_mul_of_nonneg_left hhigh' (pow_nonneg (by norm_num) _))⟩

theorem NearBy.mul_left {k : ℕ} {r x c : ℚ} (h : NearBy k r x) (hc : 0 ≤ c) : NearBy k (c * r) (c * x) := by
  obtain ⟨hlow, hhigh⟩ := h
  rw [NearBy, mul_left_comm, mul_left_comm _ c]
  exact ⟨mul_le_mul_of_nonneg_left hlow hc, mul_le_mul_of_nonneg_left hhigh hc⟩

theorem NearBy.div_right {k : ℕ} {r x c : ℚ} (h : NearBy k r x) (hc : 0 ≤ c) : NearBy k (r / c) (x / c) := by
  rw [div_eq_inv_mul, div_eq_inv_mul]
  exact h.mul_left (inv_nonneg.mpr hc)

theorem NearBy.add_left {k : ℕ} {r x c : ℚ} (h : NearBy k r x) (hc : 0 ≤ c) : NearBy k (c + r) (c + x) := by
  obtain ⟨hlow, hhigh⟩ := h
  have hbelow : ((2 : ℚ) ^ 24 / (2 ^ 24 + 1)) ^ k ≤ 1 := pow_le_one₀ (by positivity) (by norm_num)
  have habove : 1 ≤ ((2 : ℚ) ^ 24 / (2 ^ 24 - 1)) ^ k := one_le_pow₀ (by norm_num)
  rw [NearBy, mul_add, mul_add]
  exact ⟨add_le_add (mul_le_of_le_one_left hc hbelow) hlow, add_le_add (le_mul_of_one_le_left hc habove) hhigh⟩

/-- Four roundings in a row, as R93 sums them up. -/
theorem NearBy.abs_sub_le {r x : ℚ} (h : NearBy 4 r x) (hx : 0 ≤ x) : |r - x| ≤ 401 / 100 / 2 ^ 24 * x := by
  obtain ⟨hlow, hhigh⟩ := h
  have hbelow : 1 - 401 / 100 / 2 ^ 24 ≤ ((2 : ℚ) ^ 24 / (2 ^ 24 + 1)) ^ 4 := by norm_num
  have habove : ((2 : ℚ) ^ 24 / (2 ^ 24 - 1)) ^ 4 ≤ 1 + 401 / 100 / 2 ^ 24 := by norm_num
  have hlow' := (mul_le_mul_of_nonneg_right hbelow hx).trans hlow
  have hhigh' := hhigh.trans (mul_le_mul_of_nonneg_right habove hx)
  rw [abs_le]
  constructor
  · linarith
  · linarith

/- One rounding of each operation, on values. -/

theorem value_round_nearBy {n d : Nat} (hd : 0 < d) (hfinite : Binary32.isFinite (Binary32.round false n d) = true)
    (hcase : d = 1 ∨ 2 ^ 23 ≤ Binary32.absUnits (Binary32.round false n d)) :
    NearBy 1 (value (Binary32.round false n d)) ((n : ℚ) / d / 2 ^ 149) := by
  have hround : FiniteNotNegative (Binary32.round false n d) := ⟨hfinite, Binary32.signBit_round _ _ _⟩
  rw [hround.value_eq]
  exact (nearBy_of_abs_sub_le (Binary32.absUnits_round_error hd hfinite hcase)).div_right (by positivity)

theorem sub_nearBy {a b : F32} (ha : FiniteNotNegative a) (hb : FiniteNotNegative b)
    (h : Binary32.absUnits b ≤ Binary32.absUnits a) : NearBy 1 (value (Binary32.sub a b)) (value a - value b) := by
  have hfinite := (Binary32.finiteNotNegative_sub ha hb h).finite
  rw [Binary32.sub_eq_round ha hb h] at hfinite ⊢
  have hnear := value_round_nearBy Nat.one_pos hfinite (.inl rfl)
  rwa [Nat.cast_one, div_one, Nat.cast_sub h, sub_div, ← ha.value_eq, ← hb.value_eq] at hnear

theorem add_nearBy {a b : F32} (ha : FiniteNotNegative a) (hb : FiniteNotNegative b)
    (hfinite : Binary32.isFinite (Binary32.add a b) = true) : NearBy 1 (value (Binary32.add a b)) (value a + value b) := by
  rw [Binary32.add_eq_round ha hb] at hfinite ⊢
  have hnear := value_round_nearBy Nat.one_pos hfinite (.inl rfl)
  rwa [Nat.cast_one, div_one, Nat.cast_add, add_div, ← ha.value_eq, ← hb.value_eq] at hnear

/-- No exact value of a unit or more is rounded to zero (R85), so a zero result is exact and any other is normal. -/
theorem value_round_nearBy_of_zero_or_normal {n d : Nat} (hd : 0 < d) (hn : n = 0 ∨ d ≤ n)
    (hr : Binary32.isZero (Binary32.round false n d) = true ∨ Binary32.isNormal (Binary32.round false n d) = true) :
    NearBy 1 (value (Binary32.round false n d)) ((n : ℚ) / d / 2 ^ 149) := by
  rcases hn with rfl | hn
  · rw [Binary32.round_zero hd]
    simp [NearBy, value]
  · have hnormal : Binary32.isNormal (Binary32.round false n d) = true := by
      refine hr.resolve_left fun hzero => ?_
      have hone : Binary32.absUnits (Binary32.round false 1 1) ≤ Binary32.absUnits (Binary32.round false n d) :=
        (Binary32.absUnits_le_iff _ _).mpr (Binary32.magnitude_round_mono _ _ Nat.one_pos hd (by omega))
      rw [(Binary32.isZero_iff_absUnits _).mp hzero] at hone
      exact absurd hone (by decide)
    have hfinite : Binary32.isFinite (Binary32.round false n d) = true := (Bool.and_eq_true _ _ ▸ hnormal).1
    exact value_round_nearBy hd hfinite (.inr (Binary32.le_absUnits_of_isNormal hnormal))

/-- A wire that is zero or normal (R93). -/
def ZeroOrNormal (f : F32) : Prop := Binary32.isZero f = true ∨ Binary32.isNormal f = true

theorem ZeroOrNormal.isFinite {f : F32} (h : ZeroOrNormal f) : Binary32.isFinite f = true := by
  rcases h with hzero | hnormal
  · rw [Binary32.isFinite, of_decide_eq_true hzero]
    decide
  · rw [Binary32.isNormal, Bool.and_eq_true] at hnormal
    exact hnormal.1

theorem ZeroOrNormal.absUnits_cases {f : F32} (h : ZeroOrNormal f) :
    Binary32.absUnits f = 0 ∨ 2 ^ 23 ≤ Binary32.absUnits f :=
  h.imp (Binary32.isZero_iff_absUnits f).mp Binary32.le_absUnits_of_isNormal

/-- A product with an integer: it is 0, or at least one unit. -/
theorem mul_nearBy {u : Nat} (hu : u < 2 ^ 24) {b : F32} (hb : FiniteNotNegative b)
    (hr : ZeroOrNormal (Binary32.mul (Binary32.ofNat u) b)) :
    NearBy 1 (value (Binary32.mul (Binary32.ofNat u) b)) (u * value b) := by
  obtain ⟨hfinite, hunits⟩ := Binary32.ofNat_exact hu
  rw [Binary32.mul_eq_round hfinite hb, hunits] at hr ⊢
  have hn : u * 2 ^ 149 * Binary32.absUnits b = 0 ∨ 2 ^ 149 ≤ u * 2 ^ 149 * Binary32.absUnits b := by
    rw [mul_right_comm]
    exact (Nat.eq_zero_or_pos _).imp (fun h => by rw [h, Nat.zero_mul]) fun h => Nat.le_mul_of_pos_left _ h
  have hnear := value_round_nearBy_of_zero_or_normal (Nat.two_pow_pos _) hn hr
  have hx : ((u * 2 ^ 149 * Binary32.absUnits b : ℕ) : ℚ) / (2 ^ 149 : ℕ) / 2 ^ 149 = u * value b := by
    rw [hb.value_eq, mul_right_comm, Nat.cast_mul, mul_div_cancel_right₀ _ (by positivity), Nat.cast_mul, mul_div_assoc]
  rwa [hx] at hnear

/-- A quotient by an integer that no normal number is below, in units. -/
theorem div_nearBy {a : F32} (ha : FiniteNotNegative a) (hcase : ZeroOrNormal a) {u : Nat} (hpos : 0 < u) (hu : u ≤ 2 ^ 23)
    (hr : ZeroOrNormal (Binary32.div a (Binary32.ofNat u))) :
    NearBy 1 (value (Binary32.div a (Binary32.ofNat u))) (value a / u) := by
  obtain ⟨hfinite, hunits⟩ := Binary32.ofNat_exact (u := u) (by omega)
  have hd : 0 < u * 2 ^ 149 := Nat.mul_pos hpos (Nat.two_pow_pos _)
  have hz : Binary32.isZero (Binary32.ofNat u) = false := (Binary32.isZero_eq_false_iff _).mpr (hunits ▸ hd)
  rw [Binary32.div_eq_round ha hfinite hz, hunits] at hr ⊢
  have hn : Binary32.absUnits a * 2 ^ 149 = 0 ∨ u * 2 ^ 149 ≤ Binary32.absUnits a * 2 ^ 149 :=
    hcase.absUnits_cases.imp (fun h => by rw [h, Nat.zero_mul]) fun h => Nat.mul_le_mul_right _ (hu.trans h)
  have hnear := value_round_nearBy_of_zero_or_normal hd hn hr
  have hx : ((Binary32.absUnits a * 2 ^ 149 : ℕ) : ℚ) / (u * 2 ^ 149 : ℕ) / 2 ^ 149 = value a / u := by
    rw [ha.value_eq, Nat.cast_mul, Nat.cast_mul, mul_div_mul_right _ _ (by positivity), div_right_comm]
  rwa [hx] at hnear

/- The wires of LERP with the default numerics, the offset and the width of the segment as integers (R82, R87). -/

/-- The wires over a segment of width `width` at offset `offset` from its lower node. -/
structure SegmentWires (w : LerpWires) (offset width : Nat) (v0 v1 : F32) : Prop where
  offset_lt : offset < width
  width_lt : width < 2 ^ 16
  lower : FiniteNotNegative v0
  upper : FiniteNotNegative v1
  absUnits_le : Binary32.absUnits v0 ≤ Binary32.absUnits v1
  t1 : w.t1 = Binary32.ofNat offset
  t2 : w.t2 = Binary32.sub v1 v0
  t3 : w.t3 = Binary32.mul w.t1 w.t2
  t4 : w.t4 = Binary32.ofNat width
  t5 : w.t5 = Binary32.div w.t3 w.t4
  y : w.y = Binary32.add v0 w.t5

theorem RisingSegment.wires {c0 c1 : Count} {v0 v1 : F32} (h : RisingSegment c0 c1 v0 v1) {count : Count}
    (hlow : c0.toNat ≤ count.toNat) (hhigh : count.toNat < c1.toNat) :
    SegmentWires (lerpWires binary32 count c0 v0 c1 v1) (count.toNat - c0.toNat) (c1.toNat - c0.toNat) v0 v1 where
  offset_lt := by omega
  width_lt := by omega
  lower := h.lower
  upper := h.upper
  absUnits_le := h.absUnits_le
  t1 := sub_cvt_cvt hlow
  t2 := rfl
  t3 := rfl
  t4 := sub_cvt_cvt h.counts_lt.le
  t5 := rfl
  y := rfl

section
variable {w : LerpWires} {offset width : Nat} {v0 v1 : F32} (h : SegmentWires w offset width v0 v1)
include h

theorem SegmentWires.finiteNotNegative_t2 : FiniteNotNegative w.t2 := by
  rw [h.t2]
  exact Binary32.finiteNotNegative_sub h.upper h.lower h.absUnits_le

/-- The divisor is at least 1 (R87). -/
theorem SegmentWires.divisor : FiniteNotNegative w.t4 ∧ Binary32.absUnits w.t4 = width * 2 ^ 149 := by
  rw [h.t4]
  have hwidth := h.width_lt
  exact Binary32.ofNat_exact (by omega)

theorem SegmentWires.one_le_divisor : 2 ^ 149 ≤ Binary32.absUnits w.t4 := by
  rw [h.divisor.2]
  exact Nat.le_mul_of_pos_left _ (Nat.zero_lt_of_lt h.offset_lt)

theorem SegmentWires.isZero_t4 : Binary32.isZero w.t4 = false :=
  (Binary32.isZero_eq_false_iff _).mpr ((Nat.two_pow_pos _).trans_le h.one_le_divisor)

/-- R91: bounds that no wire of a moderate table exceeds. -/
theorem SegmentWires.atMost (hv1 : AtMost 249 v1) :
    AtMost 165 w.t1 ∧ AtMost 249 w.t2 ∧ AtMost 265 w.t3 ∧ AtMost 265 w.t5 ∧ AtMost 266 w.y := by
  have hoffset := h.offset_lt
  have hwidth := h.width_lt
  have ht1 : AtMost 165 w.t1 := by
    obtain ⟨hfinite, hunits⟩ := Binary32.ofNat_exact (u := offset) (by omega)
    rw [h.t1]
    refine ⟨hfinite, ?_⟩
    rw [hunits, show 165 = 16 + 149 from rfl, pow_add]
    exact Nat.mul_le_mul_right _ (by omega)
  have ht2 : AtMost 249 w.t2 := by
    rw [h.t2, Binary32.sub_eq_round h.upper h.lower h.absUnits_le]
    refine Binary32.atMost_round (by omega) (by omega) Nat.one_pos ?_
    rw [Nat.mul_one]
    exact (Nat.sub_le _ _).trans hv1.absUnits_le
  have ht3 : AtMost 265 w.t3 := h.t3 ▸ ht1.mul ht2 rfl (by omega) (by omega)
  have ht5 : AtMost 265 w.t5 := h.t5 ▸ ht3.div h.divisor.1 h.one_le_divisor (by omega) (by omega)
  have hv0 : AtMost 265 v0 := ⟨h.lower, h.absUnits_le.trans (hv1.mono (k := 265) (by omega)).absUnits_le⟩
  exact ⟨ht1, ht2, ht3, ht5, h.y ▸ hv0.add ht5 (by omega) (by omega)⟩

/-- R93: four roundings lie between the exact formula and the result. -/
theorem SegmentWires.nearBy (ht3 : ZeroOrNormal w.t3) (ht5 : ZeroOrNormal w.t5) (hy : Binary32.isFinite w.y = true) :
    NearBy 4 (value w.y) (value v0 + offset * (value v1 - value v0) / width) := by
  have hoffset := h.offset_lt
  have hwidth := h.width_lt
  have ht2 := h.finiteNotNegative_t2
  have hft3 : FiniteNotNegative w.t3 := by
    refine ⟨ht3.isFinite, ?_⟩
    rw [h.t3, h.t1]
    exact (Binary32.notNegative_mul (Binary32.ofNat_exact (by omega)).1 ht2).sign
  have hft5 : FiniteNotNegative w.t5 := by
    refine ⟨ht5.isFinite, ?_⟩
    rw [h.t5]
    exact (Binary32.notNegative_div hft3.notNegative h.divisor.1 h.isZero_t4).sign
  have hv0 : 0 ≤ value v0 := by
    rw [h.lower.value_eq]
    positivity
  have hnear2 : NearBy 1 (value w.t2) (value v1 - value v0) := h.t2 ▸ sub_nearBy h.upper h.lower h.absUnits_le
  have hnear3 : NearBy 1 (value w.t3) (offset * value w.t2) := by
    rw [h.t3, h.t1] at ht3 ⊢
    exact mul_nearBy (by omega) ht2 ht3
  have hnear5 : NearBy 1 (value w.t5) (value w.t3 / width) := by
    rw [h.t5, h.t4] at ht5 ⊢
    exact div_nearBy hft3 ht3 (by omega) (by omega) ht5
  have hnearY : NearBy 1 (value w.y) (value v0 + value w.t5) := by
    rw [h.y] at hy ⊢
    exact add_nearBy h.lower hft5 hy
  have hproduct := hnear3.trans (hnear2.mul_left (Nat.cast_nonneg offset))
  have hquotient := hnear5.trans (hproduct.div_right (Nat.cast_nonneg width))
  exact hnearY.trans (hquotient.add_left hv0)

end

/-- The exact formula with the offset and the width of the segment as integers. -/
theorem exactLerp_eq {c0 c1 count : Count} (v0 v1 : F32) (hlow : c0.toNat ≤ count.toNat) (hlt : c0.toNat < c1.toNat) :
    exactLerp count c0 v0 c1 v1 =
      value v0 + (count.toNat - c0.toNat : ℕ) * (value v1 - value v0) / (c1.toNat - c0.toNat : ℕ) := by
  rw [exactLerp, Nat.cast_sub hlow, Nat.cast_sub hlt.le]

/-- The exact formula does not leave the velocities of the segment. -/
theorem RisingSegment.exactLerp_mem {c0 c1 count : Count} {v0 v1 : F32} (h : RisingSegment c0 c1 v0 v1)
    (hlow : c0.toNat ≤ count.toNat) (hhigh : count.toNat ≤ c1.toNat) :
    0 ≤ exactLerp count c0 v0 c1 v1 ∧ exactLerp count c0 v0 c1 v1 ≤ value v1 := by
  have hwidth : (0 : ℚ) < (c1.toNat - c0.toNat : ℕ) := Nat.cast_pos.mpr (Nat.sub_pos_of_lt h.counts_lt)
  have hoffset : ((count.toNat - c0.toNat : ℕ) : ℚ) ≤ (c1.toNat - c0.toNat : ℕ) :=
    Nat.cast_le.mpr (Nat.sub_le_sub_right hhigh _)
  have hv0 : 0 ≤ value v0 := by
    rw [h.lower.value_eq]
    positivity
  have hrise : 0 ≤ value v1 - value v0 := by
    rw [h.lower.value_eq, h.upper.value_eq, ← sub_div, ← Nat.cast_sub h.absUnits_le]
    positivity
  rw [exactLerp_eq v0 v1 hlow h.counts_lt]
  have hterm : (count.toNat - c0.toNat : ℕ) * (value v1 - value v0) / (c1.toNat - c0.toNat : ℕ) ≤ value v1 - value v0 := by
    rw [div_le_iff₀ hwidth, mul_comm]
    exact mul_le_mul_of_nonneg_left hoffset hrise
  exact ⟨add_nonneg hv0 (by positivity), by linarith⟩

/-- R93 over a segment: four roundings of the exact result, which is at most the upper velocity. -/
theorem RisingSegment.lerp_near {c0 c1 count : Count} {v0 v1 : F32} (h : RisingSegment c0 c1 v0 v1)
    (hlow : c0.toNat ≤ count.toNat) (hhigh : count.toNat < c1.toNat)
    (ht3 : ZeroOrNormal (lerpWires binary32 count c0 v0 c1 v1).t3)
    (ht5 : ZeroOrNormal (lerpWires binary32 count c0 v0 c1 v1).t5)
    (hy : Binary32.isFinite (lerpWires binary32 count c0 v0 c1 v1).y = true) :
    |value (lerpWires binary32 count c0 v0 c1 v1).y - exactLerp count c0 v0 c1 v1| ≤ 401 / 100 / 2 ^ 24 * value v1 := by
  obtain ⟨hnonneg, hle⟩ := h.exactLerp_mem hlow hhigh.le
  have hnear := (h.wires hlow hhigh).nearBy ht3 ht5 hy
  rw [← exactLerp_eq v0 v1 hlow h.counts_lt] at hnear
  exact (hnear.abs_sub_le hnonneg).trans (mul_le_mul_of_nonneg_left hle (by positivity))

/-- Settles O49: the premises of the four roundings are those of the statement. -/
theorem roundedResultIsNearTheExactOne : Obligations.RoundedResultIsNearTheExactOne := by
  intro count c0 c1 v0 v1 hlow hhigh hfinite0 hfinite1 hsign0 hsign1 hle w hnormal hy
  have hsegment : RisingSegment c0 c1 v0 v1 := ⟨hlow.trans_lt hhigh, ⟨hfinite0, hsign0⟩, ⟨hfinite1, hsign1⟩, hle⟩
  exact hsegment.lerp_near hlow hhigh (hnormal w.t3 (by simp)) (hnormal w.t5 (by simp)) hy

/-- Settles O48: the nodes of such contents make a rising segment. -/
theorem wiresAreNeverNegative : Obligations.WiresAreNeverNegative := by
  intro m v i count c0 c1 v0 v1 hwf hsigns hc0 hv0 hc1 hv1 hlow hhigh w f hf
  have hsegment := risingSegment_of_wf hwf hsigns hc0 hv0 hc1 hv1
  have hwire := lerpWires_notNegative hlow hhigh hsegment.lower hsegment.upper hsegment.vel_le f hf
  exact ⟨hwire.sign, hwire.not_nan⟩

/-- The bound of a moderate table, in units. -/
theorem atMost_of_moderate {m : Memory} (hwf : m.wf = true) (hsigns : m.signsClear = true) (hmoderate : m.moderate = true)
    {v : Variant} {i : Nat} {y : F32} (hy : readVel m v i = some y) : AtMost 249 y := by
  refine ⟨finiteNotNegative_vel hwf hsigns hy, ?_⟩
  have hbound : Binary32.absUnits 0x71800000#32 = 2 ^ 249 := by decide
  have hmagnitude : Binary32.magnitude 0x71800000#32 = 0x71800000 := by decide
  have hmem : y ∈ m.bankN.vel ++ m.bankW.vel := by
    rw [readVel_eq] at hy
    cases v
    · exact List.mem_append_left _ (List.mem_of_getElem? hy)
    · exact List.mem_append_right _ (List.mem_of_getElem? hy)
  rw [← hbound, Binary32.absUnits_le_iff, hmagnitude]
  exact of_decide_eq_true (List.all_eq_true.mp hmoderate y hmem)

/-- Settles O47: no wire exceeds 2^266 units, and the greatest finite value is above that. -/
theorem moderateTablesNeverOverflow : Obligations.ModerateTablesNeverOverflow := by
  intro m v i count c0 c1 v0 v1 hwf hsigns hmoderate hc0 hv0 hc1 hv1 hlow hhigh w
  have hw := (risingSegment_of_wf hwf hsigns hc0 hv0 hc1 hv1).wires hlow hhigh
  obtain ⟨ht1, ht2, ht3, ht5, hy⟩ := hw.atMost (atMost_of_moderate hwf hsigns hmoderate hv1)
  exact ⟨ht1.finiteNotNegative.finite, ht2.finiteNotNegative.finite, ht3.finiteNotNegative.finite, hw.divisor.1.finite,
    ht5.finiteNotNegative.finite, hy.finiteNotNegative.finite, hw.isZero_t4⟩

end Sys2Proof.Machine
end

section
/-! PROOFS. The family of 42_interpolate.md, the default contents: they keep far from underflow (R93), and every segment is steeper
than the error of two results, so results rise strictly (R89). -/

namespace Sys2Proof.Machine

open Binary32 (FiniteNotNegative AtMost)

/- Segments with room above underflow. -/

theorem zeroOrNormal_of_absUnits {f : F32} (hf : FiniteNotNegative f)
    (h : Binary32.absUnits f = 0 ∨ 2 ^ 23 ≤ Binary32.absUnits f) : ZeroOrNormal f :=
  h.imp (Binary32.isZero_iff_absUnits f).mpr (Binary32.isNormal_of_le_absUnits hf.finite)

/-- What is rounded is 0, or at least a power of two, if the exact value is. -/
theorem absUnits_round_cases {k n d : Nat} (hlow : 23 ≤ k) (hhigh : k < 277) (hd : 0 < d) (h : n = 0 ∨ 2 ^ k * d ≤ n) :
    Binary32.absUnits (Binary32.round false n d) = 0 ∨ 2 ^ k ≤ Binary32.absUnits (Binary32.round false n d) := by
  refine h.imp (fun h0 => ?_) (Binary32.two_pow_le_absUnits_round hlow hhigh hd)
  rw [h0, Binary32.round_zero hd, Binary32.absUnits_zero]

/-- Between velocities 2^40 units apart the product and the quotient are zero or normal: the width is below 2^16. -/
theorem SegmentWires.zeroOrNormal {w : LerpWires} {offset width : Nat} {v0 v1 : F32}
    (h : SegmentWires w offset width v0 v1) (hv1 : AtMost 249 v1)
    (hgap : Binary32.absUnits v0 + 2 ^ 40 ≤ Binary32.absUnits v1) : ZeroOrNormal w.t3 ∧ ZeroOrNormal w.t5 := by
  obtain ⟨ht1, ht2, ht3, ht5, -⟩ := h.atMost hv1
  have hoffset := h.offset_lt
  have hwidth := h.width_lt
  obtain ⟨hdivisor, hdivisorUnits⟩ := h.divisor
  have hunits1 : Binary32.absUnits w.t1 = offset * 2 ^ 149 := by
    rw [h.t1]
    exact (Binary32.ofNat_exact (by omega)).2
  have hunits2 : 2 ^ 40 ≤ Binary32.absUnits w.t2 := by
    rw [h.t2, Binary32.sub_eq_round h.upper h.lower h.absUnits_le]
    exact Binary32.two_pow_le_absUnits_round (by omega) (by omega) Nat.one_pos (by omega)
  have hunits3 : Binary32.absUnits w.t3 = 0 ∨ 2 ^ 40 ≤ Binary32.absUnits w.t3 := by
    rw [h.t3, Binary32.mul_eq_round ht1.finiteNotNegative ht2.finiteNotNegative, hunits1]
    refine absUnits_round_cases (by omega) (by omega) (Nat.two_pow_pos _) ?_
    rcases Nat.eq_zero_or_pos offset with h0 | hpos
    · left
      rw [h0, Nat.zero_mul, Nat.zero_mul]
    · right
      rw [mul_comm]
      exact Nat.mul_le_mul (Nat.le_mul_of_pos_left _ hpos) hunits2
  have hunits5 : Binary32.absUnits w.t5 = 0 ∨ 2 ^ 23 ≤ Binary32.absUnits w.t5 := by
    rw [h.t5, Binary32.div_eq_round ht3.finiteNotNegative hdivisor h.isZero_t4, hdivisorUnits]
    refine absUnits_round_cases le_rfl (by omega) (Nat.mul_pos (Nat.zero_lt_of_lt hoffset) (Nat.two_pow_pos _)) ?_
    refine hunits3.imp (fun h0 => by rw [h0, Nat.zero_mul]) fun hlarge => ?_
    rw [← mul_assoc]
    exact Nat.mul_le_mul_right _ (by omega)
  have hnormal3 : Binary32.absUnits w.t3 = 0 ∨ 2 ^ 23 ≤ Binary32.absUnits w.t3 := hunits3.imp_right fun h => by omega
  exact ⟨zeroOrNormal_of_absUnits ht3.finiteNotNegative hnormal3,
    zeroOrNormal_of_absUnits ht5.finiteNotNegative hunits5⟩

/-- A segment that rises by 2^40 units or more, and in each count by more than twice the error of R93, both in units. -/
def steep (p q : Node) : Bool :=
  decide (Binary32.absUnits p.v + 2 ^ 40 ≤ Binary32.absUnits q.v) &&
    decide (2 * 401 * Binary32.absUnits q.v * (q.c.toNat - p.c.toNat) <
      100 * 2 ^ 24 * (Binary32.absUnits q.v - Binary32.absUnits p.v))

/-- Every segment of the default contents is steep. -/
theorem default_steep (v : Variant) :
    neighbours steep (List.zipWith Node.mk (defaultMemory.bank v).cnt (defaultMemory.bank v).vel) = true := by
  cases v
  · decide
  · decide

theorem defaultMemory_moderate : defaultMemory.moderate = true := by decide

section
variable {v : Variant} {i : Nat} {c0 c1 : Count} {v0 v1 : F32} (hc0 : readCnt defaultMemory v i = some c0)
  (hv0 : readVel defaultMemory v i = some v0) (hc1 : readCnt defaultMemory v (i + 1) = some c1)
  (hv1 : readVel defaultMemory v (i + 1) = some v1)
include hc0 hv0 hc1 hv1

theorem default_risingSegment : RisingSegment c0 c1 v0 v1 :=
  risingSegment_of_wf defaultMemory_wf defaultMemory_signsClear hc0 hv0 hc1 hv1

theorem default_segment_steep : steep ⟨c0, v0⟩ ⟨c1, v1⟩ = true := by
  rw [readCnt_eq] at hc0 hc1
  rw [readVel_eq] at hv0 hv1
  refine neighbours_get (default_steep v) (i := i) ?_ ?_
  · rw [List.getElem?_zipWith, hc0, hv0]
  · rw [List.getElem?_zipWith, hc1, hv1]

theorem default_gap : Binary32.absUnits v0 + 2 ^ 40 ≤ Binary32.absUnits v1 := by
  have hsteep := default_segment_steep hc0 hv0 hc1 hv1
  rw [steep, Bool.and_eq_true] at hsteep
  exact of_decide_eq_true hsteep.1

/-- Each count raises the exact result by more than twice the error of R93. -/
theorem default_slope : 2 * (401 / 100 / 2 ^ 24 * value v1) < (value v1 - value v0) / (c1.toNat - c0.toNat : ℕ) := by
  have hsegment := default_risingSegment hc0 hv0 hc1 hv1
  have hsteep := default_segment_steep hc0 hv0 hc1 hv1
  rw [steep, Bool.and_eq_true] at hsteep
  have hwidth : (0 : ℚ) < (c1.toNat - c0.toNat : ℕ) := Nat.cast_pos.mpr (Nat.sub_pos_of_lt hsegment.counts_lt)
  have hunits : (2 * 401 * Binary32.absUnits v1 * (c1.toNat - c0.toNat : ℕ) : ℚ) <
      100 * 2 ^ 24 * (Binary32.absUnits v1 - Binary32.absUnits v0) := by
    rw [← Nat.cast_sub hsegment.absUnits_le]
    exact_mod_cast of_decide_eq_true hsteep.2
  rw [lt_div_iff₀ hwidth, hsegment.lower.value_eq, hsegment.upper.value_eq, ← sub_div, lt_div_iff₀ (by positivity)]
  field_simp
  linarith

/-- R93 for the default contents at every count of a segment, its upper node too. -/
theorem default_result_near {count : Count} (hlow : c0.toNat ≤ count.toNat) (hhigh : count.toNat ≤ c1.toNat) :
    ∃ y, interpolate binary32 (select defaultMemory v) count = some y ∧ FiniteNotNegative y ∧
      |value y - exactLerp count c0 v0 c1 v1| ≤ 401 / 100 / 2 ^ 24 * value v1 := by
  have hsegment := default_risingSegment hc0 hv0 hc1 hv1
  rcases Nat.eq_or_lt_of_le hhigh with heq | hlt
  · have hcount : count = c1 := BitVec.eq_of_toNat_eq heq
    have hwidth : ((c1.toNat - c0.toNat : ℕ) : ℚ) ≠ 0 := Nat.cast_ne_zero.mpr (Nat.sub_pos_of_lt hsegment.counts_lt).ne'
    refine ⟨v1, ?_, hsegment.upper, ?_⟩
    · rw [hcount]
      exact interpolate_node defaultMemory_wf defaultMemory_signsClear hc1 hv1
    · rw [hcount, exactLerp_eq v0 v1 hsegment.counts_lt.le hsegment.counts_lt, mul_div_cancel_left₀ _ hwidth,
        add_sub_cancel, sub_self, abs_zero, hsegment.upper.value_eq]
      positivity
  · have hv1Bound := atMost_of_moderate defaultMemory_wf defaultMemory_signsClear defaultMemory_moderate hv1
    have hw := hsegment.wires hlow hlt
    obtain ⟨ht3, ht5⟩ := hw.zeroOrNormal hv1Bound (default_gap hc0 hv0 hc1 hv1)
    obtain ⟨-, -, -, -, hy⟩ := hw.atMost hv1Bound
    exact ⟨_, interpolate_seg_binary32 defaultMemory_wf defaultMemory_signsClear hc0 hv0 hc1 hv1 hlow hlt,
      hy.finiteNotNegative, hsegment.lerp_near hlow hlt ht3 ht5 hy.finiteNotNegative.finite⟩

end

/-- Settles O50: the upper velocity of a segment is at most the last one. -/
theorem defaultResultsAreNearTheExactOnes : Obligations.DefaultResultsAreNearTheExactOnes := by
  intro s t v i count c0 c1 v0 v1 last hconfig _ hc0 hv0 hc1 hv1 hlast hlow hhigh hexec
  have hresult := interpolate_of_exec_interp (by rw [hconfig]; rfl) hexec
  rw [rom_of_defaultConfiguration hconfig] at hc0 hv0 hc1 hv1 hlast hresult
  obtain ⟨y, hy, -, hnear⟩ := default_result_near hc0 hv0 hc1 hv1 hlow hhigh.le
  cases hresult.symm.trans hy
  have hi := lt_nodes_of_readCnt defaultMemory_wf hc1
  have hle := readVel_le_of_le defaultMemory_wf (Nat.le_sub_one_of_lt hi) hv1 hlast
  have hfv1 := finiteNotNegative_vel defaultMemory_wf defaultMemory_signsClear hv1
  have hflast := finiteNotNegative_vel defaultMemory_wf defaultMemory_signsClear hlast
  have hvalue : value v1 ≤ value last := by
    rw [hfv1.value_eq, hflast.value_eq]
    exact div_le_div_of_nonneg_right (Nat.cast_le.mpr ((hfv1.le_iff hflast).mp hle)) (by positivity)
  exact hnear.trans (mul_le_mul_of_nonneg_left hvalue (by positivity))

/- Strict order for the default configuration (R89). -/

theorem Binary32.FiniteNotNegative.lt_of_value_lt {a b : F32} (ha : FiniteNotNegative a) (hb : FiniteNotNegative b)
    (h : value a < value b) : Binary32.lt a b = true := by
  rw [ha.value_eq, hb.value_eq, div_lt_div_iff_of_pos_right (by positivity), Nat.cast_lt] at h
  have hmag : Binary32.magnitude a < Binary32.magnitude b := by
    by_contra hge
    have := (Binary32.absUnits_le_iff b a).mpr (Nat.le_of_not_lt hge)
    omega
  simpa [Binary32.lt, Binary32.orderKey, ha.notNegative.not_nan, hb.notNegative.not_nan, ha.sign, hb.sign] using hmag

theorem Binary32.lt_transitive (a b c : F32) (hab : Binary32.lt a b = true) (hbc : Binary32.lt b c = true) :
    Binary32.lt a c = true := by
  simp only [Binary32.lt, Bool.and_eq_true, decide_eq_true_eq] at *
  exact ⟨⟨hab.1.1, hbc.1.2⟩, by omega⟩

/-- Neighbouring counts lie in one segment, whose slope exceeds the two errors. -/
theorem default_results_lt {v : Variant} {a b : Count} (hlow : 409 ≤ a.toNat) (hb : b.toNat = a.toNat + 1)
    (hhigh : b.toNat ≤ 3686) : ResultsRelated Binary32.lt binary32 defaultMemory v a b := by
  have hfirst : (409#16 : Count).toNat = 409 := rfl
  have hlast : (3686#16 : Count).toNat = 3686 := rfl
  obtain ⟨i, c0, v0, c1, v1, -, hc0, hv0, hc1, hv1, hge, hlt⟩ :=
    exists_segment defaultMemory_wf (readCnt_default_first v) (readCnt_default_last v) (count := a) (by omega) (by omega)
  obtain ⟨y, hy, hfy, hnear⟩ := default_result_near hc0 hv0 hc1 hv1 hge hlt.le
  obtain ⟨y', hy', hfy', hnear'⟩ := default_result_near hc0 hv0 hc1 hv1 (count := b) (by omega) (by omega)
  refine ⟨y, y', hy, hy', hfy.lt_of_value_lt hfy' ?_⟩
  have hslope := default_slope hc0 hv0 hc1 hv1
  have hstep : exactLerp b c0 v0 c1 v1 - exactLerp a c0 v0 c1 v1 = (value v1 - value v0) / (c1.toNat - c0.toNat : ℕ) := by
    rw [exactLerp, exactLerp, hb, Nat.cast_succ, ← Nat.cast_sub (hge.trans hlt.le)]
    ring
  have herror := (abs_le.mp hnear).2
  have herror' := (abs_le.mp hnear').1
  linarith

/-- Settles O42: results rise by the check across the nodes, and strictly by the slope of each segment. -/
theorem defaultResultsRiseWithTheCount : Obligations.DefaultResultsRiseWithTheCount := by
  intro s t t' v count count' hconfig hlt hexec hexec'
  have hnum : s.config.num = .standard := by rw [hconfig]; rfl
  have hy := interpolate_of_exec_interp hnum hexec
  have hy' := interpolate_of_exec_interp hnum hexec'
  rw [rom_of_defaultConfiguration hconfig] at hy hy'
  refine ⟨((risesWithTheCount_iff _ _ _).mp (default_rises v) _ _ hlt).of_interpolate hy hy', fun hlow hhigh => ?_⟩
  have hrelated : ResultsRelated Binary32.lt binary32 defaultMemory v count count' := by
    refine related_of_lt (R := ResultsRelated Binary32.lt binary32 defaultMemory v) ?_ ?_ hlow hlt hhigh
    · exact fun _ _ _ => ResultsRelated.trans (r := Binary32.lt) Binary32.lt_transitive
    · exact fun _ _ => default_results_lt
  exact hrelated.of_interpolate hy hy'

end Sys2Proof.Machine
end

section
/-! PROOFS. The family of 60_exceptions.md: the outcomes of a step (R100, R116), which the contents decide (R30). -/

namespace Sys2Proof.Machine

theorem step_of_wf {s : State} (h : s.rom.wf = true) : ∃ t, step s = .next t := by
  obtain ⟨y, hy⟩ := exec_of_wf h (decode (request s))
  exact ⟨_, hy⟩

theorem step_refused {s : State} (h : s.rom.wf = false) : step s = .refused .romConfiguration :=
  exec_refused h (decode (request s))

/-- Everything a step can do when it refuses. -/
theorem step_eq_refused (s : State) (r : Refusal) :
    step s = .refused r ↔ r = .romConfiguration ∧ s.rom.wf = false := by
  cases hwf : s.rom.wf with
  | true =>
    obtain ⟨t, ht⟩ := step_of_wf hwf
    simp [ht]
  | false => simp [step_refused hwf, eq_comm]

/-- R100: there is no fault to answer. -/
theorem step_ne_fault (s : State) (f : Fault) : step s ≠ .fault f := by cases f

/-- Settles O9: a step answers on legal contents and refuses on all others. -/
theorem stepHasOneOutcome : Obligations.StepHasOneOutcome :=
  ⟨fun _ => step_of_wf, step_ne_fault, fun s r => (step_eq_refused s r).mp⟩

/-- Driving the ports leaves the contents as they are. -/
theorem drive_rom (v : Variant) (c : Count) (s : State) : (drive v c s).rom = s.rom :=
  congrArg Configuration.rom (drive_config v c s)

/-- Settles O19: a step on illegal contents is refused, and what drives the ports keeps the contents. -/
theorem refusalIsAboutTheConfiguration : Obligations.RefusalIsAboutTheConfiguration := by
  intro s v c h
  have hdriven : (drive v c s).rom.wf = false := by rw [drive_rom, h]
  exact ⟨step_refused h, step_refused hdriven⟩

end Sys2Proof.Machine
end
